-- ==== Sys2Proof/Word.lean ====
section
/-! DEFINITION. The bit vectors of the block: one name per data format of `00_scope.md` R7 and
`30_encoding.md` R44 to R52. All of them are unsigned, bit 0 the least significant (R10). -/

namespace Sys2Proof

/-- A 4-bit data unit, d1 = bit 0 up to d4 = bit 3 (R44). -/
abbrev Nibble := BitVec 4

/-- A 7-bit value in the layout p1 p2 d1 p3 d2 d3 d4, bit 0 first (R45). -/
abbrev Codeword := BitVec 7

/-- The 3-bit position of the bit assumed flipped; 0 for none (R49). -/
abbrev Syndrome := BitVec 3

/-- A text element (R7, R75). -/
abbrev Byte := BitVec 8

/-- A message element: upper codeword in bits 13:7, lower codeword in bits 6:0 (R47). -/
abbrev EncodedByte := BitVec 14

/-- The command word by which the host issues one operation (R52). -/
abbrev CmdWord := BitVec 17

end Sys2Proof
end

