-- ==== Sys2Proof/Config.lean ====
section
/-! DEFINITION. What the spec leaves to the implementation (MAXLEN) and the free values: constants
with no body, so that whatever is proved holds for every value of them. -/

namespace Sys2Proof

/-- How far the capacity exceeds the least one the spec allows. OPEN in the spec (R9, 92 D3); log entry 2. -/
opaque Config.spare : Nat

/-- MAXLEN, the capacity in elements of TXT and of BUF: any number that is at least 6 (R9). -/
def Config.maxLen : Nat := Config.spare + 6

/-- The one constraint on MAXLEN (R9). -/
theorem Config.six_le_maxLen : 6 ≤ Config.maxLen := Nat.le_add_left 6 Config.spare

/-- BURST_MAX, the largest burst length (R8). -/
def Config.burstMax : Nat := 5

/-- LEN_W, the width of the LEN register (R9). -/
def Config.lenWidth : Nat := Nat.clog 2 (Config.maxLen + 1)

/-- CNT_W, the width of the CNT register (R9). -/
def Config.cntWidth : Nat := Nat.clog 2 (2 * Config.maxLen + 1)

/-- FREE VALUE. The number from which draw number `t` of the noise generator is taken (R89); log entry 6. -/
opaque Config.draw : Nat → Nat

/-- FREE VALUE. What element `k` of TXT holds after host reset number `epoch` while nothing has
written it (R28, 93 U3); log entry 4. -/
opaque Config.unwrittenTxt (epoch k : Nat) : Byte

/-- FREE VALUE. The same for element `k` of BUF (R28, 93 U3); log entry 4. -/
opaque Config.unwrittenBuf (epoch k : Nat) : EncodedByte

end Sys2Proof
end

