-- ==== Sys2Proof/Syntax.lean ====
section
/-! DEFINITION. The nine operations of `30_encoding.md` R53, one constructor per row of
spec/opcode_table.json, each with the operand R54 gives it at the operand's own width. -/

namespace Sys2Proof

/-- An operation, as the command word selects it (R53, R54). -/
inductive Instr where
  /-- ENCN n, op 0 (R61). -/
  | encn (n : Nibble)
  /-- SYND c, op 1 (R64). -/
  | synd (c : Codeword)
  /-- DECN c, op 2 (R68). -/
  | decn (c : Codeword)
  /-- ENCB b, op 3 (R76). -/
  | encb (b : Byte)
  /-- DECB e, op 4 (R77). -/
  | decb (e : EncodedByte)
  /-- ENCM, op 5 (R80). -/
  | encm
  /-- DECM, op 6 (R81). -/
  | decm
  /-- NOISE.S, op 7 with mode Single (R91). -/
  | noiseS
  /-- NOISE.B, op 7 with mode Burst (R93). -/
  | noiseB
deriving DecidableEq, Repr

end Sys2Proof
end

