-- ==== Sys2Proof/WellFormed.lean ====
section
/-! DEFINITION. The check of an operation as it is WRITTEN: `30_encoding.md` R58 gives the operand as
a number, and "an operand that does not fit its field is an assembly error". An `Instr` has passed
the check: its operands' types are the fields' widths, so every `Instr` is well-formed. -/

namespace Sys2Proof

/-- One operation as an assembly line names it: a mnemonic and a number of any size (R58). -/
inductive SourceOp where
  | encn (n : Nat)
  | synd (c : Nat)
  | decn (c : Nat)
  | encb (b : Nat)
  | decb (e : Nat)
  | encm
  | decm
  | noiseS
  | noiseB
deriving DecidableEq, Repr

/-- The operand fits its field (R54, R58). -/
def SourceOp.wellFormed : SourceOp → Bool
  | .encn n => n < 2 ^ 4
  | .synd c => c < 2 ^ 7
  | .decn c => c < 2 ^ 7
  | .encb b => b < 2 ^ 8
  | .decb e => e < 2 ^ 14
  | .encm => true
  | .decm => true
  | .noiseS => true
  | .noiseB => true

/-- The line that names an operation. -/
def Instr.source : Instr → SourceOp
  | .encn n => .encn n.toNat
  | .synd c => .synd c.toNat
  | .decn c => .decn c.toNat
  | .encb b => .encb b.toNat
  | .decb e => .decb e.toNat
  | .encm => .encm
  | .decm => .decm
  | .noiseS => .noiseS
  | .noiseB => .noiseB

end Sys2Proof
end

