-- ==== Sys2Proof/Decode.lean ====
section
/-! DEFINITION. The command word of `30_encoding.md` part B: the decoder, total on all 2^17 words
(R56), the encoder, which emits every unused bit as 0 (R59), the opcode table, and the assembling of
one written operation (R58). -/

namespace Sys2Proof

/-! ### Fields -/

/-- The field `op` = cmd[16:14] (R52). -/
def opField (w : CmdWord) : BitVec 3 := w.extractLsb' 14 3

/-- The field `arg` = cmd[13:0] (R52). -/
def argField (w : CmdWord) : BitVec 14 := w.extractLsb' 0 14

/-- The noise mode, an operand of op 7 (R50). -/
inductive Mode where
  | single
  | burst
deriving DecidableEq, Repr

/-- Mode in one bit: Single = 0, Burst = 1 (R50). -/
def Mode.toBit : Mode → BitVec 1
  | .single => 0#1
  | .burst => 1#1

/-- The mode that arg[0] selects (R54). -/
def Mode.ofArg (arg : BitVec 14) : Mode := if arg[0] then .burst else .single

/-- zext_14 of R10. -/
def zext14 {w : Nat} (v : BitVec w) : BitVec 14 := v.setWidth 14

/-! ### The decoder -/

/-- The operation that `op` = 7 selects, by its mode (R53). -/
def decodeNoise (m : Mode) : Instr :=
  match m with
  | .single => .noiseS
  | .burst => .noiseB

/-- The operation a command word selects (R53, R54); the unused bits of `arg` are ignored (R55). -/
def decode (w : CmdWord) : Instr :=
  let arg := argField w
  match (opField w).toFin with
  | 0 => .encn (arg.extractLsb' 0 4)
  | 1 => .synd (arg.extractLsb' 0 7)
  | 2 => .decn (arg.extractLsb' 0 7)
  | 3 => .encb (arg.extractLsb' 0 8)
  | 4 => .decb arg
  | 5 => .encm
  | 6 => .decm
  | 7 => decodeNoise (Mode.ofArg arg)

/-! ### The encoder -/

/-- A command word from its two fields (R52). -/
def commandWord (op : BitVec 3) (arg : BitVec 14) : CmdWord := op ++ arg

/-- The canonical command word of an operation (R59). -/
def encode : Instr → CmdWord
  | .encn n => commandWord 0#3 (zext14 n)
  | .synd c => commandWord 1#3 (zext14 c)
  | .decn c => commandWord 2#3 (zext14 c)
  | .encb b => commandWord 3#3 (zext14 b)
  | .decb e => commandWord 4#3 e
  | .encm => commandWord 5#3 0#14
  | .decm => commandWord 6#3 0#14
  | .noiseS => commandWord 7#3 (zext14 (Mode.toBit .single))
  | .noiseB => commandWord 7#3 (zext14 (Mode.toBit .burst))

/-! ### The opcode table -/

/-- A row of R59: a word w selects it when `w & mask = pattern`; `used` marks the bits that are not
ignored (the letters of the row's pattern other than z). -/
structure TableRow where
  mnemonic : String
  pattern : CmdWord
  mask : CmdWord
  used : CmdWord
deriving DecidableEq, Repr

def rowEncn : TableRow := ⟨"ENCN", 0x00000#17, 0x1C000#17, 0x1C00F#17⟩
def rowSynd : TableRow := ⟨"SYND", 0x04000#17, 0x1C000#17, 0x1C07F#17⟩
def rowDecn : TableRow := ⟨"DECN", 0x08000#17, 0x1C000#17, 0x1C07F#17⟩
def rowEncb : TableRow := ⟨"ENCB", 0x0C000#17, 0x1C000#17, 0x1C0FF#17⟩
def rowDecb : TableRow := ⟨"DECB", 0x10000#17, 0x1C000#17, 0x1FFFF#17⟩
def rowEncm : TableRow := ⟨"ENCM", 0x14000#17, 0x1C000#17, 0x1C000#17⟩
def rowDecm : TableRow := ⟨"DECM", 0x18000#17, 0x1C000#17, 0x1C000#17⟩
def rowNoiseS : TableRow := ⟨"NOISE.S", 0x1C000#17, 0x1C001#17, 0x1C001#17⟩
def rowNoiseB : TableRow := ⟨"NOISE.B", 0x1C001#17, 0x1C001#17, 0x1C001#17⟩

/-- The nine rows of R59. -/
def opcodeTable : List TableRow :=
  [rowEncn, rowSynd, rowDecn, rowEncb, rowDecb, rowEncm, rowDecm, rowNoiseS, rowNoiseB]

/-- A word selects a row (R59). -/
abbrev TableRow.selects (r : TableRow) (w : CmdWord) : Prop := w &&& r.mask = r.pattern

/-- The row of an operation. -/
def Instr.row : Instr → TableRow
  | .encn _ => rowEncn
  | .synd _ => rowSynd
  | .decn _ => rowDecn
  | .encb _ => rowEncb
  | .decb _ => rowDecb
  | .encm => rowEncm
  | .decm => rowDecm
  | .noiseS => rowNoiseS
  | .noiseB => rowNoiseB

/-! ### Assembling one operation -/

/-- The operation a written line stands for; none where its operand does not fit (R58). -/
def SourceOp.assemble (o : SourceOp) : Option Instr :=
  if o.wellFormed then
    match o with
    | .encn n => some (.encn (BitVec.ofNat 4 n))
    | .synd c => some (.synd (BitVec.ofNat 7 c))
    | .decn c => some (.decn (BitVec.ofNat 7 c))
    | .encb b => some (.encb (BitVec.ofNat 8 b))
    | .decb e => some (.decb (BitVec.ofNat 14 e))
    | .encm => some .encm
    | .decm => some .decm
    | .noiseS => some .noiseS
    | .noiseB => some .noiseB
  else none

/-! ### The host's numbering of a table word -/

/-- A table word of `nbits` bits, every bit above them 0, as a number (log entry 7). -/
def tableWordValue (nbits w : Nat) : Nat := w % 2 ^ nbits

/-- The command word with those bits. -/
def tableCommand (nbits w : Nat) : CmdWord := BitVec.ofNat 17 (tableWordValue nbits w)

/-- What the decoder reads from a table word; none where a bit above bit 16 is set, for then it is
no 17-bit command word (R52; log entry 7). -/
def decodeTableWord (nbits w : Nat) : Option Instr :=
  if tableWordValue nbits w < 2 ^ 17 then some (decode (tableCommand nbits w)) else none

end Sys2Proof
end

