-- ==== Sys2Proof/Machine/State.lean ====
section
/-! DEFINITION. The seven items of architectural state (`10_state.md` R15), the model's own three
fields, the host's moves (`20_memory.md` R38), and the state right after reset (R28). -/

namespace Sys2Proof.Machine

/-- A memory of elements of width `w`: the elements written since reset with their indices, indices
strictly rising. An index that is not listed has not been written since reset. -/
abbrev Memory (w : Nat) := List (Nat × BitVec w)

/-- The FAULT flag (R23). -/
inductive FaultFlag where
  /-- `None`, encoded 0. -/
  | none
  /-- `InvalidIndex`, encoded 1: set by a NOISE operation whose precondition on LEN fails (R96). -/
  | invalidIndex
deriving DecidableEq, Repr

/-- What the host may read (R38 (a), (b), (d)). -/
inductive HostRead where
  | txt (k : Nat)
  | buf (k : Nat)
  | len
  | res
  | ncor
  | cnt
  | fault
deriving DecidableEq, Repr

/-- What a host read answers. -/
inductive HostAnswer where
  | txt (v : Byte)
  | buf (v : EncodedByte)
  | len (n : Nat)
  | res (v : BitVec 14)
  | ncor (v : BitVec 2)
  | cnt (n : Nat)
  | fault (code : BitVec 1)
  /-- The access is out of range and returns no value (R38). -/
  | refused
deriving DecidableEq, Repr

/-- One move of the host; it makes them between operations only (R38, R39). -/
inductive HostAction where
  /-- Issue one command word (R38 (c)). -/
  | issue (cmd : CmdWord)
  /-- Write an element of TXT (R38 (a)). -/
  | putTxt (k : Nat) (v : Byte)
  /-- Write an element of BUF (R38 (a)). -/
  | putBuf (k : Nat) (v : EncodedByte)
  /-- Write LEN (R38 (b)). -/
  | putLen (n : Nat)
  /-- Read an element or a register (R38 (a), (b), (d)). -/
  | look (r : HostRead)
  /-- Reset the block (R38 (e), R115). -/
  | reset
deriving DecidableEq, Repr

/-- The machine. The first seven fields are the block's whole architectural state (R15); the last
three are the model's own (log entries 1, 4 and 6). -/
structure State where
  /-- TXT, the text memory (R17). -/
  txt : Memory 8
  /-- BUF, the message buffer (R18). -/
  buf : Memory 14
  /-- LEN, the number of elements in use, at most MAXLEN (R19; log entry 3). -/
  len : Fin (Config.maxLen + 1)
  /-- RES, the result of the last scalar operation (R20). -/
  res : BitVec 14
  /-- NCOR, how many codewords the last DECN or DECB corrected (R21). -/
  ncor : BitVec 2
  /-- CNT, how many codewords the last DECM corrected, at most 2 × MAXLEN (R22; log entry 3). -/
  cnt : Fin (2 * Config.maxLen + 1)
  /-- FAULT (R23). -/
  fault : FaultFlag
  /-- The host's moves still to come, the next one first (log entry 1). -/
  queue : List HostAction
  /-- How many draws the noise generator has made (R89; log entry 6). -/
  drawn : Nat
  /-- How many times the host has reset the block (R28; log entry 4). -/
  epoch : Nat
deriving DecidableEq, Repr

/-- The reasons a step stops the machine. There are none: the block's one exception is a flag in the
state (R104, R108) and every operation runs to completion (R37), so nothing raises a member of this
type. That is safe as long as the spec is right that nothing else can fail (R101). -/
inductive Fault where
deriving DecidableEq, Repr

/-- The reasons a step gives an operation no meaning. -/
inductive Refusal where
  /-- Raised by an arm of `exec` whose operation has no meaning yet; no arm raises it. Safe. -/
  | notModelled (mnemonic : String)
deriving DecidableEq, Repr

/-- The machine right after reset (R28, R115): LEN = RES = NCOR = CNT = 0, FAULT = `None`, every
element of TXT and BUF unspecified. The host has no move pending (log entry 1). -/
def State.reset : State where
  txt := []
  buf := []
  len := 0
  res := 0
  ncor := 0
  cnt := 0
  fault := .none
  queue := []
  drawn := 0
  epoch := 0

end Sys2Proof.Machine
end

