-- ==== Sys2Proof/Machine/Ops.lean ====
section
/-! DEFINITION. The named operations over the state: reading and writing one element (`00_scope.md`
R11, `20_memory.md` R31), writing the result registers, the loop `for k in 0 .. n−1`, the draws, and
taking the block's one exception (`60_exceptions.md` R108, R109). -/

namespace Sys2Proof.Machine

/-! ### One memory -/

/-- The element at index `k`, none while nothing has written it since reset. -/
def Memory.read {w : Nat} : Memory w → Nat → Option (BitVec w)
  | [], _ => none
  | (a, x) :: m, k => if k = a then some x else Memory.read m k

/-- Write one whole element (R31), keeping the indices rising. -/
def Memory.write {w : Nat} : Memory w → Nat → BitVec w → Memory w
  | [], k, v => [(k, v)]
  | (a, x) :: m, k, v =>
    if k < a then (k, v) :: (a, x) :: m
    else if k = a then (k, v) :: m
    else (a, x) :: Memory.write m k v

/-- The canonical form: indices strictly rising. (No listed element can equal what an unlisted index
reads as: an unlisted index has no stored value.) -/
abbrev Memory.wf {w : Nat} (m : Memory w) : Prop := List.Pairwise (fun a b => a.1 < b.1) m

/-- Every listed index is below `n`. -/
abbrev Memory.below {w : Nat} (m : Memory w) (n : Nat) : Prop := ∀ c ∈ m, c.1 < n

/-! ### TXT and BUF: MemRead and MemWrite of R11 -/

/-- TXT[k]: the latest value written, or the element's unspecified reset value (R41 (a), R28). -/
def State.readTxt (s : State) (k : Nat) : Byte :=
  (Memory.read s.txt k).getD (Config.unwrittenTxt s.epoch k)

/-- BUF[k]: the latest value written, or the element's unspecified reset value (R41 (a), R28). -/
def State.readBuf (s : State) (k : Nat) : EncodedByte :=
  (Memory.read s.buf k).getD (Config.unwrittenBuf s.epoch k)

/-- TXT[k] <- v. -/
def State.writeTxt (s : State) (k : Nat) (v : Byte) : State :=
  { s with txt := Memory.write s.txt k v }

/-- BUF[k] <- v. -/
def State.writeBuf (s : State) (k : Nat) (v : EncodedByte) : State :=
  { s with buf := Memory.write s.buf k v }

/-! ### Registers -/

/-- RES <- zext_14(v): a scalar result with the higher bits written 0 (R20). -/
def State.writeRes {w : Nat} (s : State) (v : BitVec w) : State := { s with res := zext14 v }

/-- NCOR <- v (R21). -/
def State.writeNcor (s : State) (v : BitVec 2) : State := { s with ncor := v }

/-- CNT <- v (R22). -/
def State.writeCnt (s : State) (v : Fin (2 * Config.maxLen + 1)) : State := { s with cnt := v }

/-- LEN <- v; only the host does this (R19). -/
def State.writeLen (s : State) (v : Fin (Config.maxLen + 1)) : State := { s with len := v }

/-! ### The loop of R11 -/

/-- `for k in 0 .. n−1: body`, in ascending order and not at all when n = 0 (R11). -/
def forEach (body : State → Nat → State) : Nat → State → State
  | 0, s => s
  | n + 1, s => body (forEach body n s) n

/-! ### Draws -/

/-- `draw x in {0, ..., n−1}` from the number `raw`: some member, and each member for some `raw`
(R89; log entry 6). -/
def pick (raw n : Nat) : Nat := raw % n

/-- The next free number; `stream` is the source of randomness. -/
def State.nextDraw (s : State) (stream : Nat → Nat) : Nat := stream s.drawn

/-- One more draw has been made. -/
def State.advanceDraw (s : State) : State := { s with drawn := s.drawn + 1 }

/-! ### The one exception -/

/-- Taking `InvalidIndex`: FAULT <- `InvalidIndex`, and nothing else changes (R108). There is no
return from it; only reset clears the flag (R109). -/
def State.raiseInvalidIndex (s : State) : State := { s with fault := .invalidIndex }

/-- Perform an operation: its effect while FAULT = `None`; nothing at all while FAULT is set (R109).
Either way it runs to completion (R37). -/
def perform (s : State) (effect : State → State) : Host.Outcome State Fault Refusal :=
  match s.fault with
  | .none => .next (effect s)
  | .invalidIndex => .next s

end Sys2Proof.Machine
end

