-- ==== Sys2Proof/Machine/Operands.lean ====
section
/-! DEFINITION. The bit formats operands are read in and results are put together in
(`30_encoding.md` R44 to R51), and the parity groups (R46). -/

namespace Sys2Proof.Machine

/-! ### Bytes and nibbles (R51) -/

/-- b[7:4]. -/
def upperNibble (b : Byte) : Nibble := b.extractLsb' 4 4

/-- b[3:0]. -/
def lowerNibble (b : Byte) : Nibble := b.extractLsb' 0 4

/-- The byte {upper, lower}. -/
def joinNibbles (upper lower : Nibble) : Byte := upper ++ lower

/-! ### Encoded bytes and codewords (R47, R51) -/

/-- e[13:7]. -/
def upperCodeword (e : EncodedByte) : Codeword := e.extractLsb' 7 7

/-- e[6:0]. -/
def lowerCodeword (e : EncodedByte) : Codeword := e.extractLsb' 0 7

/-- The encoded byte {upper, lower}. -/
def joinCodewords (upper lower : Codeword) : EncodedByte := upper ++ lower

/-! ### The codeword layout (R45) -/

/-- A codeword from its named bits: p1 at bit 0, p2, d1, p3, d2, d3, and d4 at bit 6 (R45). -/
def packCodeword (p1 p2 d1 p3 d2 d3 d4 : Bool) : Codeword :=
  BitVec.ofBool d4 ++ BitVec.ofBool d3 ++ BitVec.ofBool d2 ++ BitVec.ofBool p3 ++
    BitVec.ofBool d1 ++ BitVec.ofBool p2 ++ BitVec.ofBool p1

/-- A nibble from its data bits: d1 at bit 0 up to d4 at bit 3 (R44). -/
def packNibble (d1 d2 d3 d4 : Bool) : Nibble :=
  BitVec.ofBool d4 ++ BitVec.ofBool d3 ++ BitVec.ofBool d2 ++ BitVec.ofBool d1

/-- A syndrome from its checks: bit 0 from check 1, bit 1 from check 2, bit 2 from check 3 (R49). -/
def packSyndrome (s1 s2 s3 : Bool) : Syndrome :=
  BitVec.ofBool s3 ++ BitVec.ofBool s2 ++ BitVec.ofBool s1

/-! ### Parity (R10, R46) -/

/-- popcount(v), the number of 1 bits of v (R10). -/
def popcount {w : Nat} (v : BitVec w) : Nat := (List.range w).countP fun k => v.getLsbD k

/-- parity(v) = popcount(v) mod 2 (R10). -/
def parity {w : Nat} (v : BitVec w) : Nat := popcount v % 2

/-- M1, group {p1, d1, d2, d4} = bits 0, 2, 4, 6 (R46). -/
def maskGroup1 : Codeword := 0x55#7

/-- M2, group {p2, d1, d3, d4} = bits 1, 2, 5, 6 (R46). -/
def maskGroup2 : Codeword := 0x66#7

/-- M3, group {p3, d2, d3, d4} = bits 3, 4, 5, 6 (R46). -/
def maskGroup3 : Codeword := 0x78#7

end Sys2Proof.Machine
end

