-- ==== Sys2Proof/Machine/Flags.lean ====
section
/-! DEFINITION. The flag-like results: `corrected`, what NCOR gets from it, and FAULT's code
(`10_state.md` R21, R23, R24; there are no condition codes). -/

namespace Sys2Proof.Machine

/-- `corrected`: true exactly when the syndrome is not 0 (R68). -/
def corrected (s : Syndrome) : Bool := s != 0#3

/-- How many codewords a decoding corrected, for one codeword: 1 for true, 0 for false (R68). -/
def correctedCount (k : Bool) : Nat := k.toNat

/-- The value written to NCOR for a count of 0, 1 or 2 (R21). -/
def ncorOf (n : Nat) : BitVec 2 := BitVec.ofNat 2 n

/-- FAULT as the host reads it: `None` 0, `InvalidIndex` 1 (R23, R104). -/
def FaultFlag.code : FaultFlag → BitVec 1
  | .none => 0#1
  | .invalidIndex => 1#1

end Sys2Proof.Machine
end

