-- ==== Sys2Proof/Machine/Nibble.lean ====
section
/-! DEFINITION. The nibble-level operations ENCN, SYND and DECN of `40_hamming_nibble.md`, with the
functions ENC, SYN, COR, EXT and DEC they are made of. -/

namespace Sys2Proof.Machine

/-- ENC, the nibble encoder: the three parity equations and the codeword layout (R61). -/
def enc (n : Nibble) : Codeword :=
  let p1 := n[0] ^^ n[1] ^^ n[3]
  let p2 := n[0] ^^ n[2] ^^ n[3]
  let p3 := n[1] ^^ n[2] ^^ n[3]
  packCodeword p1 p2 n[0] p3 n[1] n[2] n[3]

/-- SYN, the syndrome: each received parity bit against its recomputation (R64). -/
def syn (w : Codeword) : Syndrome :=
  let s1 := (w[2] ^^ w[4] ^^ w[6]) ^^ w[0]
  let s2 := (w[2] ^^ w[5] ^^ w[6]) ^^ w[1]
  let s3 := (w[4] ^^ w[5] ^^ w[6]) ^^ w[3]
  packSyndrome s1 s2 s3

/-- COR, the 1-bit error corrector: flips codeword bit s − 1 when s ≠ 0 (R66). -/
def cor (c : Codeword) (s : Syndrome) : Codeword :=
  if s = 0#3 then c else c ^^^ (1#7 <<< (s.toNat - 1))

/-- EXT, the data extraction (R67). -/
def ext (w : Codeword) : Nibble := packNibble w[2] w[4] w[5] w[6]

/-- DEC, the decoding of one codeword: its value and whether a bit was flipped (R68). -/
def dec (c : Codeword) : Nibble × Bool :=
  let s := syn c
  (ext (cor c s), corrected s)

/-- ENCN n (R61). -/
def execEncn (n : Nibble) (s : State) : Host.Outcome State Fault Refusal :=
  perform s fun s => s.writeRes (enc n)

/-- SYND c (R64). -/
def execSynd (c : Codeword) (s : State) : Host.Outcome State Fault Refusal :=
  perform s fun s => s.writeRes (syn c)

/-- DECN c (R68). -/
def execDecn (c : Codeword) (s : State) : Host.Outcome State Fault Refusal :=
  perform s fun s => (s.writeRes (dec c).1).writeNcor (ncorOf (correctedCount (dec c).2))

end Sys2Proof.Machine
end

