-- ==== Sys2Proof/Machine/ByteMessage.lean ====
section
/-! DEFINITION. The byte-level and message-level operations ENCB, DECB, ENCM and DECM of
`41_byte_message.md`. -/

namespace Sys2Proof.Machine

/-- ENCBYTE (R76). -/
def encByte (b : Byte) : EncodedByte :=
  joinCodewords (enc (upperNibble b)) (enc (lowerNibble b))

/-- DECBYTE: the raw byte (R79) and how many of its two codewords were corrected (R77). -/
def decByte (e : EncodedByte) : Byte × Nat :=
  let u := dec (upperCodeword e)
  let l := dec (lowerCodeword e)
  (joinNibbles u.1 l.1, correctedCount u.2 + correctedCount l.2)

/-- ENCB b (R76). -/
def execEncb (b : Byte) (s : State) : Host.Outcome State Fault Refusal :=
  perform s fun s => s.writeRes (encByte b)

/-- DECB e (R77). -/
def execDecb (e : EncodedByte) (s : State) : Host.Outcome State Fault Refusal :=
  perform s fun s => (s.writeRes (decByte e).1).writeNcor (ncorOf (decByte e).2)

/-- The body of ENCM's loop: BUF[k] <- ENCBYTE(TXT[k]) (R80). -/
def encElement (s : State) (k : Nat) : State := s.writeBuf k (encByte (s.readTxt k))

/-- The body of DECM's loop: TXT[k] <- the byte of DECBYTE(BUF[k]) (R81). -/
def decElement (s : State) (k : Nat) : State := s.writeTxt k (decByte (s.readBuf k)).1

/-- DECM's `total` after n elements (R81, R82). The loop does not write what it reads, so the count
is the same taken beside the loop (R84; log entry 10). -/
def correctedTotal (s : State) : Nat → Nat
  | 0 => 0
  | n + 1 => correctedTotal s n + (decByte (s.readBuf n)).2

theorem decByte_count_le (e : EncodedByte) : (decByte e).2 ≤ 2 :=
  Nat.add_le_add (Bool.toNat_le _) (Bool.toNat_le _)

theorem correctedTotal_le (s : State) (n : Nat) : correctedTotal s n ≤ 2 * n := by
  induction n with
  | zero => exact Nat.le_refl 0
  | succ n ih =>
    have h := decByte_count_le (s.readBuf n)
    show correctedTotal s n + (decByte (s.readBuf n)).2 ≤ 2 * (n + 1)
    omega

theorem correctedTotal_lt (s : State) : correctedTotal s s.len < 2 * Config.maxLen + 1 := by
  have h := correctedTotal_le s s.len
  have hl := s.len.isLt
  omega

/-- The value DECM writes to CNT: the total over the message, which cannot wrap (R82). -/
def messageCount (s : State) : Fin (2 * Config.maxLen + 1) :=
  ⟨correctedTotal s s.len, correctedTotal_lt s⟩

/-- ENCM (R80). -/
def execEncm (s : State) : Host.Outcome State Fault Refusal :=
  perform s fun s => forEach encElement s.len s

/-- DECM (R81). -/
def execDecm (s : State) : Host.Outcome State Fault Refusal :=
  perform s fun s => (forEach decElement s.len s).writeCnt (messageCount s)

end Sys2Proof.Machine
end

