-- ==== Sys2Proof/Machine/Noise.lean ====
section
/-! DEFINITION. The noise generator operations NOISE.S and NOISE.B of `42_noise.md`. Given its draws
an operation is a function of BUF and LEN (R90); the draws come from a stream of free numbers (R89). -/

namespace Sys2Proof.Machine

/-- The perturbation of one element: increment modulo 2^14, no carry recorded (R88). -/
def increment (e : EncodedByte) : EncodedByte := e + 1#14

/-- BUF[k] <- (BUF[k] + 1) mod 16384 (R88). -/
def perturb (s : State) (k : Nat) : State := s.writeBuf k (increment (s.readBuf k))

/-- `for k in i .. i+b−1: BUF[k] <- (BUF[k] + 1) mod 16384` (R93). -/
def perturbRun (b i : Nat) (s : State) : State := forEach (fun t j => perturb t (i + j)) b s

/-- NOISE.S with its draw of i in {0, ..., LEN−1} from `stream` (R91). -/
def noiseSingle (stream : Nat → Nat) (s : State) : State :=
  let i := pick (s.nextDraw stream) s.len
  perturb s.advanceDraw i

/-- NOISE.B with its draws from `stream`: b in {0, ..., 5} first, then i in {0, ..., LEN−b} (R89, R93). -/
def noiseBurst (stream : Nat → Nat) (s : State) : State :=
  let b := pick (s.nextDraw stream) (Config.burstMax + 1)
  let i := pick (s.advanceDraw.nextDraw stream) (s.len - b + 1)
  perturbRun b i s.advanceDraw.advanceDraw

/-- NOISE.S with its precondition LEN ≥ 1, tested at issue (R91, R95, R96). -/
def noiseSingleChecked (stream : Nat → Nat) (s : State) : State :=
  if s.len.val < 1 then s.raiseInvalidIndex else noiseSingle stream s

/-- NOISE.B with its precondition LEN ≥ 6, tested at issue (R93, R94, R96). -/
def noiseBurstChecked (stream : Nat → Nat) (s : State) : State :=
  if s.len.val < Config.burstMax + 1 then s.raiseInvalidIndex else noiseBurst stream s

/-- NOISE.S (R91). -/
def execNoiseS (s : State) : Host.Outcome State Fault Refusal :=
  perform s (noiseSingleChecked Config.draw)

/-- NOISE.B (R93). -/
def execNoiseB (s : State) : Host.Outcome State Fault Refusal :=
  perform s (noiseBurstChecked Config.draw)

end Sys2Proof.Machine
end

