-- ==== Sys2Proof/Machine/Dispatch.lean ====
section
/-! DEFINITION. One arm per operation of `30_encoding.md` R53. -/

namespace Sys2Proof.Machine

/-- Perform one operation. -/
def exec (i : Instr) (s : State) : Host.Outcome State Fault Refusal :=
  match i with
  | .encn n => Sys2Proof.Machine.execEncn n s
  | .synd c => Sys2Proof.Machine.execSynd c s
  | .decn c => Sys2Proof.Machine.execDecn c s
  | .encb b => Sys2Proof.Machine.execEncb b s
  | .decb e => Sys2Proof.Machine.execDecb e s
  | .encm => Sys2Proof.Machine.execEncm s
  | .decm => Sys2Proof.Machine.execDecm s
  | .noiseS => Sys2Proof.Machine.execNoiseS s
  | .noiseB => Sys2Proof.Machine.execNoiseB s

end Sys2Proof.Machine
end

