-- ==== Sys2Proof/Machine/HostSide.lean ====
section
/-! DEFINITION. What the host's moves do to the block (`20_memory.md` R38): its writes, its reads,
its reset (`70_reset_and_hazards.md` R115), and issuing a command word. -/

namespace Sys2Proof.Machine

/-- A host write of TXT[k]; refused, with no effect, at an index of MAXLEN or above (R38). -/
def hostPutTxt (k : Nat) (v : Byte) (s : State) : State :=
  if k < Config.maxLen then s.writeTxt k v else s

/-- A host write of BUF[k]; refused, with no effect, at an index of MAXLEN or above (R38). -/
def hostPutBuf (k : Nat) (v : EncodedByte) (s : State) : State :=
  if k < Config.maxLen then s.writeBuf k v else s

/-- A host write of LEN; a value above MAXLEN is refused and leaves LEN unchanged (R38 (b)). -/
def hostPutLen (n : Nat) (s : State) : State :=
  if h : n < Config.maxLen + 1 then s.writeLen ⟨n, h⟩ else s

/-- The host's reset: every register at its value of R28, no element of TXT or BUF written, FAULT
cleared. The host's pending moves and the count of draws are not the block's and stay (log entry 5). -/
def hostReset (s : State) : State :=
  { State.reset with queue := s.queue, drawn := s.drawn, epoch := s.epoch + 1 }

/-- What a host read answers; it changes nothing (R36, R38), also while FAULT is set (R109). -/
def hostRead (r : HostRead) (s : State) : HostAnswer :=
  match r with
  | .txt k => if k < Config.maxLen then .txt (s.readTxt k) else .refused
  | .buf k => if k < Config.maxLen then .buf (s.readBuf k) else .refused
  | .len => .len s.len
  | .res => .res s.res
  | .ncor => .ncor s.ncor
  | .cnt => .cnt s.cnt
  | .fault => .fault s.fault.code

/-- One move of the host (R38). -/
def hostMove (a : HostAction) (s : State) : Host.Outcome State Fault Refusal :=
  match a with
  | .issue cmd => exec (decode cmd) s
  | .putTxt k v => .next (hostPutTxt k v s)
  | .putBuf k v => .next (hostPutBuf k v s)
  | .putLen n => .next (hostPutLen n s)
  | .look _ => .next s
  | .reset => .next (hostReset s)

/-- The host's next move and the state with it taken off the queue; none while the host does nothing. -/
def nextMove (s : State) : Option (HostAction × State) :=
  match s.queue with
  | [] => none
  | a :: rest => some (a, { s with queue := rest })

/-- The block waits while the host does nothing, holding its state (R129); else the host's next move
happens, whole (R37). -/
def stepHost (s : State) : Host.Outcome State Fault Refusal :=
  match nextMove s with
  | none => .next s
  | some (a, t) => hostMove a t

/-- The host is about to issue this command word (log entry 1). -/
def issueNext (cmd : CmdWord) (s : State) : State := { s with queue := .issue cmd :: s.queue }

end Sys2Proof.Machine
end

