-- ==== Sys2Proof/Machine/Step.lean ====
section
/-! DEFINITION. One step of the machine: the host's next move, whole (`20_memory.md` R37, R38). -/

namespace Sys2Proof.Machine

/-- One step. -/
def step (s : State) : Host.Outcome State Fault Refusal := stepHost s

/-- The state in which the next step runs the table word `w`: the host issues it next (log entry 1). -/
def State.withFetchWord (s : State) (nbits w : Nat) : State := issueNext (tableCommand nbits w) s

end Sys2Proof.Machine
end

