-- ==== Sys2Proof/Machine/Asm.lean ====
section
/-! DEFINITION. The assembly notation of `30_encoding.md` R58, as lines with their parts already
told apart (log entry 13): operations, the pseudo-instructions CYCLE.S and CYCLE.B, and the
directives, each turned into the host's moves it stands for. -/

namespace Sys2Proof.Machine

/-- What a line says. -/
inductive AsmItem where
  | op (o : SourceOp)
  /-- The pseudo-instruction CYCLE.S. -/
  | cycleS
  /-- The pseudo-instruction CYCLE.B. -/
  | cycleB
  /-- `.reset` -/
  | reset
  /-- `.len n` -/
  | len (n : Nat)
  /-- `.txt k, v` -/
  | txt (k v : Nat)
  /-- `.text "s"`, the characters as code points. -/
  | text (s : List Nat)
  /-- `.buf k, v` -/
  | buf (k v : Nat)
deriving DecidableEq, Repr

/-- A comment that names the draws an example assumes; it is not encoded (R58). -/
inductive DrawNote where
  | single (i : Nat)
  | burst (b i : Nat)
deriving DecidableEq, Repr

/-- A line: what it says, and its draw comment if it has one. -/
structure AsmLine where
  item : AsmItem
  note : Option DrawNote
deriving DecidableEq, Repr

/-- The move that issues an operation, in its canonical command word (R59). -/
def issueOf (i : Instr) : HostAction := .issue (encode i)

/-- `.text`: each character at its index from `k` on; none where a character is no 8-bit value (R75). -/
def textMoves : Nat → List Nat → Option (List HostAction)
  | _, [] => some []
  | k, c :: cs =>
    if c < 2 ^ 8 then (textMoves (k + 1) cs).map (.putTxt k (BitVec.ofNat 8 c) :: ·) else none

/-- The moves an item stands for; none is an assembly error (R58). -/
def AsmItem.moves : AsmItem → Option (List HostAction)
  | .op o => o.assemble.map fun i => [issueOf i]
  | .cycleS => some [issueOf .encm, issueOf .noiseS, issueOf .decm]
  | .cycleB => some [issueOf .encm, issueOf .noiseB, issueOf .decm]
  | .reset => some [.reset]
  | .len n => some [.putLen n]
  | .txt k v => if v < 2 ^ 8 then some [.putTxt k (BitVec.ofNat 8 v)] else none
  | .text s => (textMoves 0 s).map (· ++ [.putLen s.length])
  | .buf k v => if v < 2 ^ 14 then some [.putBuf k (BitVec.ofNat 14 v)] else none

/-- The moves of a program, line by line; none where a line is an assembly error. -/
def assemble : List AsmLine → Option (List HostAction)
  | [] => some []
  | l :: ls =>
    match l.item.moves, assemble ls with
    | some a, some b => some (a ++ b)
    | _, _ => none

end Sys2Proof.Machine
end

