-- ==== Sys2Proof/Safety.lean ====
section
/-! DEFINITION. The terms claims are stated in: the invariant of the machine, the states that count
as final (`60_exceptions.md` R109, `70_reset_and_hazards.md` R129), the duties of the host (R116,
R119), and the performing of several operations in a row. -/

namespace Sys2Proof.Machine

/-- What holds of every state a run reaches: both memories in canonical form with no element at
MAXLEN or above (R17, R18), and NCOR never 3 (R21). LEN ≤ MAXLEN (R19) and CNT ≤ 2 × MAXLEN (R22)
hold by the fields' types. -/
abbrev State.Inv (s : State) : Prop :=
  (Memory.wf s.txt ∧ Memory.below s.txt Config.maxLen) ∧
  (Memory.wf s.buf ∧ Memory.below s.buf Config.maxLen) ∧
  s.ncor ≠ 3#2

/-- A state that counts as the final state of a run (R109, R129). -/
abbrev State.Final (s : State) : Prop := s.fault = .none

/-- Every element of the text has been written since reset (R85, R116). -/
abbrev State.TextWritten (s : State) : Prop := ∀ k, k < s.len.val → Memory.read s.txt k ≠ none

/-- The precondition on LEN that the host must guard (R95, R94, R119). -/
def preconditionHolds (i : Instr) (s : State) : Prop :=
  match i with
  | .encn _ | .synd _ | .decn _ | .encb _ | .decb _ | .encm | .decm => True
  | .noiseS => 1 ≤ s.len.val
  | .noiseB => 6 ≤ s.len.val

/-- The seven operations that raise nothing (R101). -/
def isCoding (i : Instr) : Prop :=
  match i with
  | .encn _ | .synd _ | .decn _ | .encb _ | .decb _ | .encm | .decm => True
  | .noiseS | .noiseB => False

/-- Two states agree on everything the block holds but for the elements of TXT and BUF at index
LEN and above. -/
def State.AgreeBelowLen (s t : State) : Prop :=
  (∀ k, k < s.len.val → s.readTxt k = t.readTxt k) ∧
  (∀ k, k < s.len.val → s.readBuf k = t.readBuf k) ∧
  s.len = t.len ∧ s.res = t.res ∧ s.ncor = t.ncor ∧ s.cnt = t.cnt ∧ s.fault = t.fault ∧
  s.drawn = t.drawn

/-- The operations of a list one after the other. -/
def execAll : List Instr → State → Host.Outcome State Fault Refusal
  | [], s => .next s
  | i :: rest, s =>
    match exec i s with
    | .next t => execAll rest t
    | .fault r => .fault r
    | .refused r => .refused r

/-- The table of R62: the codeword of nibble n is entry n. -/
def encoderTable : List Codeword :=
  [0, 7, 25, 30, 42, 45, 51, 52, 75, 76, 82, 85, 97, 102, 120, 127]

/-- The map g of R99 on nibbles 0 to 14: what a nibble comes back as after its encoding's increment. -/
def incrementedNibble (l : Nibble) : Nibble :=
  ([0, 0, 3, 3, 4, 4, 7, 7, 9, 9, 10, 10, 13, 13, 14] : List Nibble).getD l.toNat 0

/-- The map c of R99 on nibbles 0 to 14: the correction counted. -/
def incrementedCount (l : Nibble) : Nat := if l = 6#4 ∨ l = 8#4 then 0 else 1

/-- The eight lower nibbles that survive one increment (R99 (a)). -/
def survivingNibbles : List Nibble := [0, 3, 4, 7, 9, 10, 13, 14]

/-- The codeword errors counted for one element: how many of its two codewords differ. -/
def codewordsChanged (e f : EncodedByte) : Nat :=
  (if upperCodeword e = upperCodeword f then 0 else 1) +
    (if lowerCodeword e = lowerCodeword f then 0 else 1)

/-- Each codeword of `f` differs from that of `e` in at most one bit. -/
abbrev AtMostOneBitPerCodeword (e f : EncodedByte) : Prop :=
  popcount (upperCodeword e ^^^ upperCodeword f) ≤ 1 ∧
    popcount (lowerCodeword e ^^^ lowerCodeword f) ≤ 1

/-- A valid codeword: one of the 16 values ENC produces (R63). -/
abbrev ValidCodeword (w : Codeword) : Prop := ∃ n : Nibble, enc n = w

end Sys2Proof.Machine
end

