-- ==== Sys2Proof/Certificates/Slice0/Obligations.lean ====
section
/-! DEFINITION. The statements for the provers. Each docstring names the rules it formalises. -/

open Sys2Proof Sys2Proof.Machine

/-! ### The command word -/

/-- R55, R59: the canonical word of an operation decodes to it, and the canonical word of what any
word decodes to is that word with its ignored bits cleared. -/
def Obligations.DecodeAndEncodeAgree : Prop :=
  (∀ i : Instr, decode (encode i) = i) ∧
  (∀ w : CmdWord, encode (decode w) = w &&& (decode w).row.used)

/-- R56 (with R53, R59): every one of the 2^17 words selects exactly one row of the table, the row of
the operation it decodes to. -/
def Obligations.EveryWordSelectsExactlyItsRow : Prop :=
  ∀ w : CmdWord, (decode w).row ∈ opcodeTable ∧
    ∀ r ∈ opcodeTable, (r.selects w ↔ r = (decode w).row)

/-- R53, R54: `op` selects the operation, for op 7 together with arg[0], and the operand is the named
low bits of the word. -/
def Obligations.OpFieldSelectsOperation : Prop :=
  ∀ w : CmdWord,
    (w.extractLsb' 14 3 = 0#3 → decode w = .encn (w.extractLsb' 0 4)) ∧
    (w.extractLsb' 14 3 = 1#3 → decode w = .synd (w.extractLsb' 0 7)) ∧
    (w.extractLsb' 14 3 = 2#3 → decode w = .decn (w.extractLsb' 0 7)) ∧
    (w.extractLsb' 14 3 = 3#3 → decode w = .encb (w.extractLsb' 0 8)) ∧
    (w.extractLsb' 14 3 = 4#3 → decode w = .decb (w.extractLsb' 0 14)) ∧
    (w.extractLsb' 14 3 = 5#3 → decode w = .encm) ∧
    (w.extractLsb' 14 3 = 6#3 → decode w = .decm) ∧
    (w.extractLsb' 14 3 = 7#3 → w.getLsbD 0 = false → decode w = .noiseS) ∧
    (w.extractLsb' 14 3 = 7#3 → w.getLsbD 0 = true → decode w = .noiseB)

/-- R55 (bits ignored, the spec's default of 93 U5): two words of the same row that agree on the bits
the row uses have the same effect on every state. -/
def Obligations.IgnoredArgBitsHaveNoEffect : Prop :=
  ∀ (w w' : CmdWord) (s : State), (decode w).row.selects w' →
    w &&& (decode w).row.used = w' &&& (decode w).row.used →
    exec (decode w') s = exec (decode w) s

/-- Words of 95_test_vectors section 2.9, written out. -/
def Obligations.TabulatedWordsDecode : Prop :=
  decode 0x0000B#17 = .encn 11#4 ∧ decode 0x04054#17 = .synd 84#7 ∧
  decode 0x08054#17 = .decn 84#7 ∧ decode 0x0C048#17 = .encb 0x48#8 ∧
  decode 0x1154A#17 = .decb 5450#14 ∧ decode 0x14000#17 = .encm ∧ decode 0x15234#17 = .encm ∧
  decode 0x18000#17 = .decm ∧ decode 0x1C000#17 = .noiseS ∧ decode 0x1C001#17 = .noiseB ∧
  decode 0x1FFFE#17 = .noiseS ∧ decode 0x1FFFF#17 = .noiseB

/-- R58: a written operation assembles exactly when its operand fits its field, and then to the
operation that is written that way. -/
def Obligations.AssemblingKeepsTheOperand : Prop :=
  ∀ (o : SourceOp) (i : Instr), o.assemble = some i ↔ o.wellFormed = true ∧ i.source = o

/-! ### The step and the host -/

/-- The host's next move taken off the queue, a command word is performed as the operation it decodes
to (the queue is the model's own, log entry 1); with no move pending the block holds its state. -/
def Obligations.StepPerformsTheIssuedCommand : Prop :=
  (∀ (s : State) (w : CmdWord) (rest : List HostAction), s.queue = .issue w :: rest →
    step s = exec (decode w) { s with queue := rest }) ∧
  (∀ (s : State) (nbits w : Nat),
    step (s.withFetchWord nbits w) = exec (decode (tableCommand nbits w)) s) ∧
  (∀ s : State, s.queue = [] → step s = .next s)

/-- R38 (a), (b): what a host write does in every state, in range and out of range, also with FAULT set
(log entry 8). The write is the next move in `queue` (log entry 1). -/
def Obligations.HostWritesInRangeOnly : Prop :=
  ∀ (s : State) (rest : List HostAction) (k n : Nat) (v : Byte) (e : EncodedByte),
    (s.queue = .putTxt k v :: rest → k < Config.maxLen → ∃ m : Memory 8,
      step s = .next { s with queue := rest, txt := m } ∧
      ∀ j, Memory.read m j = if j = k then some v else Memory.read s.txt j) ∧
    (s.queue = .putTxt k v :: rest → Config.maxLen ≤ k → step s = .next { s with queue := rest }) ∧
    (s.queue = .putBuf k e :: rest → k < Config.maxLen → ∃ m : Memory 14,
      step s = .next { s with queue := rest, buf := m } ∧
      ∀ j, Memory.read m j = if j = k then some e else Memory.read s.buf j) ∧
    (s.queue = .putBuf k e :: rest → Config.maxLen ≤ k → step s = .next { s with queue := rest }) ∧
    (s.queue = .putLen n :: rest → n ≤ Config.maxLen → ∃ l : Fin (Config.maxLen + 1),
      l.val = n ∧ step s = .next { s with queue := rest, len := l }) ∧
    (s.queue = .putLen n :: rest → Config.maxLen < n → step s = .next { s with queue := rest })

/-- R36, R41 (a), R31: a host read answers the latest write to that element, no write to another
element or to the other memory changes it, out of range it answers nothing, and reading changes
nothing. R38 (b), (d), R23: a register read answers what the register holds, LEN after a host write
the value written, or its old value where the write is refused. What a read answers is the model's
function `hostRead` (log entry 14). -/
def Obligations.HostReadsAnswerTheLatestWrite : Prop :=
  (∀ s : State,
    hostRead .len s = .len s.len.val ∧ hostRead .res s = .res s.res ∧
    hostRead .ncor s = .ncor s.ncor ∧ hostRead .cnt s = .cnt s.cnt.val ∧
    (s.fault = .none → hostRead .fault s = .fault 0#1) ∧
    (s.fault = .invalidIndex → hostRead .fault s = .fault 1#1) ∧
    (∀ n, n ≤ Config.maxLen → hostRead .len (hostPutLen n s) = .len n) ∧
    (∀ n, Config.maxLen < n → hostRead .len (hostPutLen n s) = .len s.len.val)) ∧
  ∀ (s : State) (k j : Nat) (v : Byte) (e : EncodedByte), k < Config.maxLen →
    hostRead (.txt k) (s.writeTxt k v) = .txt v ∧
    hostRead (.buf k) (s.writeBuf k e) = .buf e ∧
    (j ≠ k → hostRead (.txt j) (s.writeTxt k v) = hostRead (.txt j) s) ∧
    (j ≠ k → hostRead (.buf j) (s.writeBuf k e) = hostRead (.buf j) s) ∧
    hostRead (.txt j) (s.writeBuf k e) = hostRead (.txt j) s ∧
    hostRead (.buf j) (s.writeTxt k v) = hostRead (.buf j) s ∧
    (Config.maxLen ≤ j → hostRead (.txt j) s = .refused ∧ hostRead (.buf j) s = .refused) ∧
    (∀ (r : HostRead) (rest : List HostAction), s.queue = .look r :: rest →
      step s = .next { s with queue := rest })

/-- R28, R115: a reset, from every state, also with FAULT set, leaves the registers at the spec's
values and no element of TXT or BUF written: they read as unspecified values (log entry 4). The host's
later moves stay in `queue` (log entry 5). -/
def Obligations.HostResetFromEveryState : Prop :=
  ∀ (s : State) (rest : List HostAction), s.queue = .reset :: rest →
    ∃ t : State, step s = .next t ∧ t.len.val = 0 ∧ t.res = 0#14 ∧ t.ncor = 0#2 ∧ t.cnt.val = 0 ∧
      t.fault = .none ∧ t.queue = rest ∧
      ∀ k, Memory.read t.txt k = none ∧ Memory.read t.buf k = none

/-- R28: the state right after reset, register by register; no element of TXT or BUF is written, so
they read as unspecified values (log entry 4). -/
def Obligations.ResetRegisterValues : Prop :=
  State.reset.len.val = 0 ∧ State.reset.res = 0#14 ∧ State.reset.ncor = 0#2 ∧
  State.reset.cnt.val = 0 ∧ State.reset.fault = .none ∧
  ∀ k, Memory.read State.reset.txt k = none ∧ Memory.read State.reset.buf k = none

/-- Every operation and every step answers a next state. That an operation runs to completion is R37;
that no step ends in a fault or a refusal is the model's reading of R108 and R109 (log entry 9), that an
operation on a never-written element runs is log entry 4, and that a step with no move pending holds
the state is log entry 1, from R129. -/
def Obligations.EveryStepCompletes : Prop :=
  (∀ (i : Instr) (s : State), ∃ t, exec i s = .next t) ∧ ∀ s : State, ∃ t, step s = .next t

/-- R9, R19, R22: the numbers LEN and CNT hold fit in LEN_W and CNT_W bits, in every state. -/
def Obligations.LenAndCntFitTheirWidths : Prop :=
  ∀ s : State, s.len.val < 2 ^ Config.lenWidth ∧ s.cnt.val < 2 ^ Config.cntWidth

/-! ### Nibble-level operations -/

/-- R61: RES after ENCN, bit by bit from the parity equations and the codeword layout; nothing else
changes. -/
def Obligations.EncnWritesTheCodeword : Prop :=
  (∀ w : CmdWord, w.extractLsb' 14 3 = 0#3 → decode w = .encn (w.extractLsb' 0 4)) ∧
  ∀ (n : Nibble) (s : State), s.fault = .none →
    ∃ r : BitVec 14, exec (.encn n) s = .next { s with res := r } ∧
      r.getLsbD 0 = (n.getLsbD 0 ^^ n.getLsbD 1 ^^ n.getLsbD 3) ∧
      r.getLsbD 1 = (n.getLsbD 0 ^^ n.getLsbD 2 ^^ n.getLsbD 3) ∧
      r.getLsbD 2 = n.getLsbD 0 ∧
      r.getLsbD 3 = (n.getLsbD 1 ^^ n.getLsbD 2 ^^ n.getLsbD 3) ∧
      r.getLsbD 4 = n.getLsbD 1 ∧ r.getLsbD 5 = n.getLsbD 2 ∧ r.getLsbD 6 = n.getLsbD 3 ∧
      (∀ j, 7 ≤ j → r.getLsbD j = false) ∧
      (n = 0#4 → r = 0#14) ∧ (n = 15#4 → r = 127#14) ∧ (n = 11#4 → r = 85#14)

/-- R62: RES after ENCN is the table's entry. -/
def Obligations.EncnFollowsTheTable : Prop :=
  ∀ (n : Nibble) (s : State), s.fault = .none →
    ∃ w : Codeword, encoderTable[n.toNat]? = some w ∧
      exec (.encn n) s = .next { s with res := w.setWidth 14 }

/-- R63: ENCN is injective and linear, two different codewords differ in at least 3 bits, and the
codewords other than 0 have 3, 4 or 7 one-bits. -/
def Obligations.EncnIsLinearWithDistanceThree : Prop :=
  ∀ (a b : Nibble) (s : State), s.fault = .none →
    ∃ x y : BitVec 14, exec (.encn a) s = .next { s with res := x } ∧
      exec (.encn b) s = .next { s with res := y } ∧
      exec (.encn (a ^^^ b)) s = .next { s with res := x ^^^ y } ∧
      (a ≠ b → 3 ≤ popcount (x ^^^ y)) ∧
      (a ≠ 0#4 → popcount x = 3 ∨ popcount x = 4 ∨ popcount x = 7)

/-- R64: RES after SYND, bit by bit from the three checks, which are the parities over the three
groups; nothing else changes. -/
def Obligations.SyndWritesTheSyndrome : Prop :=
  (∀ w : CmdWord, w.extractLsb' 14 3 = 1#3 → decode w = .synd (w.extractLsb' 0 7)) ∧
  ∀ (c : Codeword) (s : State), s.fault = .none →
    ∃ r : BitVec 14, exec (.synd c) s = .next { s with res := r } ∧
      r.getLsbD 0 = (c.getLsbD 2 ^^ c.getLsbD 4 ^^ c.getLsbD 6 ^^ c.getLsbD 0) ∧
      r.getLsbD 1 = (c.getLsbD 2 ^^ c.getLsbD 5 ^^ c.getLsbD 6 ^^ c.getLsbD 1) ∧
      r.getLsbD 2 = (c.getLsbD 4 ^^ c.getLsbD 5 ^^ c.getLsbD 6 ^^ c.getLsbD 3) ∧
      (∀ j, 3 ≤ j → r.getLsbD j = false) ∧
      (r.getLsbD 0).toNat = parity (c &&& 85#7) ∧
      (r.getLsbD 1).toNat = parity (c &&& 102#7) ∧
      (r.getLsbD 2).toNat = parity (c &&& 120#7) ∧
      (c = 0#7 → r = 0#14) ∧ (c = 127#7 → r = 0#14) ∧ (c = 84#7 → r = 1#14)

/-- R65: the syndrome is 0 exactly on the valid codewords, it is linear, the syndrome of one set bit,
alone or on a valid codeword, is that bit's position, and each syndrome has 16 operands. -/
def Obligations.SyndromeLocatesTheFlippedBit : Prop :=
  (∀ p : Syndrome, ((List.range 128).countP fun k => syn (BitVec.ofNat 7 k) = p) = 16) ∧
  ∀ (a b : Codeword) (s : State), s.fault = .none →
    ∃ x y : BitVec 14, x = (syn a).setWidth 14 ∧ exec (.synd a) s = .next { s with res := x } ∧
      exec (.synd b) s = .next { s with res := y } ∧
      exec (.synd (a ^^^ b)) s = .next { s with res := x ^^^ y } ∧
      (x = 0#14 ↔ ValidCodeword a) ∧
      (∀ k, k < 7 → b = 1#7 <<< k → y = BitVec.ofNat 14 (k + 1)) ∧
      (∀ k, k < 7 → ValidCodeword a → b = 1#7 <<< k → x ^^^ y = BitVec.ofNat 14 (k + 1))

/-- R68 (with R64, R66, R67): the syndrome names the one bit that is flipped, RES gets the four data
bits of the result and NCOR whether a bit was flipped; nothing else changes. -/
def Obligations.DecnWritesNibbleAndCorrected : Prop :=
  (∀ w : CmdWord, w.extractLsb' 14 3 = 2#3 → decode w = .decn (w.extractLsb' 0 7)) ∧
  ∀ (c : Codeword) (s : State), s.fault = .none →
    ∃ (p c2 : Codeword) (r : BitVec 14) (k : BitVec 2),
      exec (.synd c) s = .next { s with res := p.setWidth 14 } ∧
      (∀ j, j < 7 → c2.getLsbD j = (c.getLsbD j ^^ decide (p.toNat = j + 1))) ∧
      exec (.decn c) s = .next { s with res := r, ncor := k } ∧
      r.getLsbD 0 = c2.getLsbD 2 ∧ r.getLsbD 1 = c2.getLsbD 4 ∧
      r.getLsbD 2 = c2.getLsbD 5 ∧ r.getLsbD 3 = c2.getLsbD 6 ∧
      (∀ j, 4 ≤ j → r.getLsbD j = false) ∧
      k = (if p = 0#7 then 0#2 else 1#2) ∧
      (ValidCodeword c ↔ k = 0#2) ∧
      (c = 85#7 → r = 11#14 ∧ k = 0#2) ∧ (c = 84#7 → r = 11#14 ∧ k = 1#2) ∧
      (c = 86#7 → r = 10#14 ∧ k = 1#2)

/-- R70: encoding a nibble and decoding what RES then holds gives the nibble back with no correction,
and the syndrome is 0. -/
def Obligations.CleanCodewordDecodesUncorrected : Prop :=
  ∀ (v : Nibble) (s : State), s.fault = .none →
    ∃ t : State, exec (.encn v) s = .next t ∧
      exec (.decn (t.res.setWidth 7)) t = .next { t with res := v.setWidth 14, ncor := 0#2 } ∧
      exec (.synd (t.res.setWidth 7)) t = .next { t with res := 0#14 }

/-- The exact law of R71: a codeword with one flipped bit decodes to the nibble with one correction,
and its syndrome is the position of the bit. -/
def Obligations.SingleBitErrorIsCorrected : Prop :=
  ∀ (v : Nibble) (k : Nat) (s : State), k < 7 → s.fault = .none →
    exec (.decn (enc v ^^^ (1#7 <<< k))) s =
      .next { s with res := v.setWidth 14, ncor := 1#2 } ∧
    exec (.synd (enc v ^^^ (1#7 <<< k))) s = .next { s with res := BitVec.ofNat 14 (k + 1) }

/-- R72: DECN returns the data of the one valid codeword within one bit of its operand. -/
def Obligations.DecnReturnsTheNearestCodeword : Prop :=
  ∀ (c : Codeword) (s : State), s.fault = .none →
    ∃ n : Nibble, popcount (c ^^^ enc n) ≤ 1 ∧
      (∀ m : Nibble, popcount (c ^^^ enc m) ≤ 1 → m = n) ∧
      exec (.decn c) s =
        .next { s with res := (ext (enc n)).setWidth 14, ncor := if enc n = c then 0#2 else 1#2 }

/-- R73: two flipped bits are always decoded to a wrong nibble with a correction counted; the
syndrome names a third bit, and the result is a codeword three bits from the original, as every
codeword three bits away has other data bits. -/
def Obligations.TwoBitErrorsAreMisdecoded : Prop :=
  (∀ a b : Nibble, popcount (enc a ^^^ enc b) = 3 → ext (enc a) ≠ ext (enc b)) ∧
  ∀ (v : Nibble) (j k : Nat) (s : State), j < 7 → k < 7 → j ≠ k → s.fault = .none →
    ∃ (v' : Nibble) (p : Nat), v' ≠ v ∧ p = (j + 1) ^^^ (k + 1) ∧ p ≠ 0 ∧ p ≤ 7 ∧
      p ≠ j + 1 ∧ p ≠ k + 1 ∧
      exec (.synd (enc v ^^^ (1#7 <<< j) ^^^ (1#7 <<< k))) s =
        .next { s with res := BitVec.ofNat 14 p } ∧
      exec (.decn (enc v ^^^ (1#7 <<< j) ^^^ (1#7 <<< k))) s =
        .next { s with res := v'.setWidth 14, ncor := 1#2 } ∧
      enc v' = enc v ^^^ (1#7 <<< j) ^^^ (1#7 <<< k) ^^^ (1#7 <<< (p - 1)) ∧
      popcount (enc v ^^^ enc v') = 3

/-- R74, its general law: for an error pattern on a valid codeword the syndrome is the pattern's, and
the value is right exactly when at most one bit is flipped. -/
def Obligations.DecodedValueRightIffOneError : Prop :=
  ∀ (v : Nibble) (e : Codeword) (s : State), s.fault = .none →
    ∃ (r : BitVec 14) (p : Syndrome) (k : BitVec 2),
      exec (.decn (enc v ^^^ e)) s = .next { s with res := r, ncor := k } ∧
      (r = v.setWidth 14 ↔ popcount e ≤ 1) ∧
      exec (.synd (enc v ^^^ e)) s = .next { s with res := p.setWidth 14 } ∧
      exec (.synd e) s = .next { s with res := p.setWidth 14 } ∧
      (k = 0#2 ↔ p = 0#3)

/-- R16: with FAULT = `None`, the results of the scalar operations are functions of the operand alone:
any two states give the same RES and, for DECN and DECB, the same NCOR. -/
def Obligations.ScalarResultsIgnoreTheState : Prop :=
  ∀ (i : Instr) (s t : State), s.fault = .none → t.fault = .none →
    (match i with
      | .encn _ | .synd _ | .encb _ =>
        ∃ r, exec i s = .next { s with res := r } ∧ exec i t = .next { t with res := r }
      | .decn _ | .decb _ =>
        ∃ r k, exec i s = .next { s with res := r, ncor := k } ∧
          exec i t = .next { t with res := r, ncor := k }
      | .encm | .decm | .noiseS | .noiseB => True)

/-! ### Byte-level and message-level operations -/

/-- R76: RES after ENCB holds the upper nibble's codeword in bits 13:7 and the lower's in bits 6:0;
nothing else changes. -/
def Obligations.EncbWritesTwoCodewords : Prop :=
  (∀ w : CmdWord, w.extractLsb' 14 3 = 3#3 → decode w = .encb (w.extractLsb' 0 8)) ∧
  ∀ (b : Byte) (s : State), s.fault = .none →
    ∃ r : BitVec 14, exec (.encb b) s = .next { s with res := r } ∧
      exec (.encn (b.extractLsb' 4 4)) s =
        .next { s with res := (r.extractLsb' 7 7).setWidth 14 } ∧
      exec (.encn (b.extractLsb' 0 4)) s =
        .next { s with res := (r.extractLsb' 0 7).setWidth 14 } ∧
      (b = 0#8 → r = 0#14) ∧ (b = 255#8 → r = 16383#14) ∧ (b = 0x48#8 → r = 5451#14)

/-- ENCB's corner cases in R76: injective and linear over exclusive-or. -/
def Obligations.EncbIsLinearAndInjective : Prop :=
  ∀ (a b : Byte) (s : State), s.fault = .none →
    ∃ x y : BitVec 14, exec (.encb a) s = .next { s with res := x } ∧
      exec (.encb b) s = .next { s with res := y } ∧
      exec (.encb (a ^^^ b)) s = .next { s with res := x ^^^ y } ∧ (x = y ↔ a = b)

/-- R77: DECB decodes each half by itself; RES gets {vu, vl} and NCOR the number of halves corrected;
nothing else changes. -/
def Obligations.DecbDecodesEachHalf : Prop :=
  (∀ w : CmdWord, w.extractLsb' 14 3 = 4#3 → decode w = .decb (w.extractLsb' 0 14)) ∧
  ∀ (e : EncodedByte) (s : State), s.fault = .none →
    ∃ (vu vl : Nibble) (ku kl : BitVec 2),
      exec (.decn (e.extractLsb' 7 7)) s = .next { s with res := vu.setWidth 14, ncor := ku } ∧
      exec (.decn (e.extractLsb' 0 7)) s = .next { s with res := vl.setWidth 14, ncor := kl } ∧
      exec (.decb e) s =
        .next { s with res := BitVec.ofNat 14 (16 * vu.toNat + vl.toNat), ncor := ku + kl } ∧
      (ku + kl).toNat = ku.toNat + kl.toNat ∧ (ku + kl).toNat ≤ 2 ∧
      (e = 5451#14 → vu = 4#4 ∧ vl = 8#4 ∧ ku + kl = 0#2) ∧
      (e = 5450#14 → vu = 4#4 ∧ vl = 8#4 ∧ ku + kl = 1#2)

/-- R77 and R85, one byte: with at most one flipped bit in each half of an encoded byte the byte comes
back, and NCOR is the number of halves that had a bit flipped. -/
def Obligations.DecbCorrectsOneBitPerHalf : Prop :=
  ∀ (b : Byte) (e : EncodedByte) (s : State), s.fault = .none →
    AtMostOneBitPerCodeword (encByte b) e →
    exec (.decb e) s =
      .next { s with res := b.setWidth 14, ncor := BitVec.ofNat 2 (codewordsChanged (encByte b) e) }

/-- R80: ENCM writes the encoding of TXT[k] to BUF[k] for every k below LEN and nothing else; every
element written is a pair of valid codewords. The example of R80 is "Hi". -/
def Obligations.EncmEncodesEveryElement : Prop :=
  encByte 0x48#8 = 5451#14 ∧ encByte 0x69#8 = 6604#14 ∧
  (∀ w : CmdWord, w.extractLsb' 14 3 = 5#3 → decode w = .encm) ∧
  ∀ s : State, s.fault = .none →
    ∃ m : Memory 14, exec .encm s = .next { s with buf := m } ∧
      (∀ k, Memory.read m k =
        if k < s.len.val then some (encByte (s.readTxt k)) else Memory.read s.buf k) ∧
      (∀ k, k < s.len.val → ∃ u l : Nibble,
        Memory.read m k = some (joinCodewords (enc u) (enc l)) ∧
        s.readTxt k = joinNibbles u l)

/-- R81 and R82: DECM writes the byte decoded from BUF[k] to TXT[k] for every k below LEN, and to CNT
the number of codewords corrected, which cannot wrap; nothing else changes. -/
def Obligations.DecmDecodesEveryElement : Prop :=
  (∀ w : CmdWord, w.extractLsb' 14 3 = 6#3 → decode w = .decm) ∧
  ∀ s : State, s.fault = .none →
    ∃ (m : Memory 8) (n : Fin (2 * Config.maxLen + 1)),
      exec .decm s = .next { s with txt := m, cnt := n } ∧
      (∀ k, Memory.read m k =
        if k < s.len.val then some (decByte (s.readBuf k)).1 else Memory.read s.txt k) ∧
      n.val = ((List.range s.len.val).map fun k => (decByte (s.readBuf k)).2).sum ∧
      n.val ≤ 2 * s.len.val

/-- R83: the empty message. -/
def Obligations.EmptyMessageWritesOnlyCnt : Prop :=
  ∀ s : State, s.fault = .none → s.len.val = 0 →
    exec .encm s = .next s ∧ exec .decm s = .next { s with cnt := 0 }

/-- R85: ENCM then DECM leaves the text as it was and CNT = 0, and with one flipped bit in any or all
of the codewords between the two the text still comes back and CNT is the number of codewords that
had a bit flipped. -/
def Obligations.MessageRoundTripCorrectsOneBitPerCodeword : Prop :=
  (∀ b : Byte, decByte (encByte b) = (b, 0)) ∧
  ∀ s : State, s.fault = .none → s.TextWritten →
    (∃ r : State, execAll [.encm, .decm] s = .next r ∧
      (∀ k, k < s.len.val → r.readTxt k = s.readTxt k) ∧ r.cnt.val = 0) ∧
    ∃ t : State, exec .encm s = .next t ∧
      ∀ t' : State, t'.fault = .none → t'.len = t.len →
        (∀ k, k < s.len.val → AtMostOneBitPerCodeword (t.readBuf k) (t'.readBuf k)) →
        ∃ r : State, exec .decm t' = .next r ∧
          (∀ k, k < s.len.val → r.readTxt k = s.readTxt k) ∧
          r.cnt.val = ((List.range s.len.val).map fun k =>
            codewordsChanged (t.readBuf k) (t'.readBuf k)).sum

/-- R42, R84: whatever the order in which ENCM, DECM and the run of NOISE.B visit their elements, the
state after is the same; CNT is the sum of the corrections taken in that order, which is one sum for
every order. Elements never written are covered as R36 has it (log entry 4). -/
def Obligations.VisitingOrderCannotBeObserved : Prop :=
  ∀ (s : State), s.Inv → s.fault = .none →
    (∀ order : List Nat, order.Perm (List.range s.len.val) →
      exec .encm s = .next (order.foldl encElement s)) ∧
    (∀ order : List Nat, order.Perm (List.range s.len.val) →
      ∃ n, exec .decm s = .next { order.foldl decElement s with cnt := n } ∧
        n.val = (order.map fun k => (decByte (s.readBuf k)).2).sum) ∧
    (∀ (b i : Nat) (order : List Nat), order.Perm ((List.range b).map (i + ·)) →
      perturbRun b i s = order.foldl perturb s)

/-- R81, corner case: decoding does not change BUF, so DECM can be issued again and gives the same TXT
and CNT (for elements never written, by R36; log entry 4). -/
def Obligations.DecmCanBeIssuedAgain : Prop :=
  ∀ s t : State, s.Inv → exec .decm s = .next t → t.buf = s.buf ∧ exec .decm t = .next t

/-- R125: ENCM after a NOISE operation encodes from TXT again and wipes the noise out of BUF below
LEN (for elements of TXT never written, by R36; log entry 4). -/
def Obligations.ReencodingWipesTheNoise : Prop :=
  ∀ (s : State) (i : Instr), s.fault = .none → preconditionHolds i s → i = .noiseS ∨ i = .noiseB →
    ∃ t u : State, exec .encm s = .next t ∧ execAll [.encm, i, .encm] s = .next u ∧
      u.txt = t.txt ∧ ∀ k, k < s.len.val → u.readBuf k = t.readBuf k

/-! ### Noise -/

/-- R88, R91: with LEN ≥ 1, NOISE.S increments exactly one element below LEN modulo 16384; with
LEN = 0 it sets FAULT and changes nothing else. `drawn` counts the draw (log entry 6). -/
def Obligations.NoiseSIncrementsOneElement : Prop :=
  (∀ w : CmdWord, w.extractLsb' 14 3 = 7#3 → w.getLsbD 0 = false → decode w = .noiseS) ∧
  ∀ s : State, s.fault = .none →
    (1 ≤ s.len.val → ∃ (i : Nat) (e : EncodedByte) (m : Memory 14), i < s.len.val ∧
      exec .noiseS s = .next { s with buf := m, drawn := s.drawn + 1 } ∧
      e.toNat = ((s.readBuf i).toNat + 1) % 16384 ∧
      ∀ k, Memory.read m k = if k = i then some e else Memory.read s.buf k) ∧
    (s.len.val < 1 → exec .noiseS s = .next { s with fault := .invalidIndex })

/-- R88, R93: with LEN ≥ 6, NOISE.B increments a run of b elements from index i on, each once, for
some b ≤ 5 and i + b ≤ LEN; with LEN < 6 it sets FAULT and changes nothing else. `drawn` counts the
two draws (log entry 6). -/
def Obligations.NoiseBIncrementsOneRun : Prop :=
  (∀ w : CmdWord, w.extractLsb' 14 3 = 7#3 → w.getLsbD 0 = true → decode w = .noiseB) ∧
  ∀ s : State, s.fault = .none →
    (6 ≤ s.len.val → ∃ (b i : Nat) (m : Memory 14), b ≤ 5 ∧ i + b ≤ s.len.val ∧
      exec .noiseB s = .next { s with buf := m, drawn := s.drawn + 2 } ∧
      ∀ k, (i ≤ k ∧ k < i + b → ∃ e : EncodedByte, Memory.read m k = some e ∧
          e.toNat = ((s.readBuf k).toNat + 1) % 16384) ∧
        (¬(i ≤ k ∧ k < i + b) → Memory.read m k = Memory.read s.buf k)) ∧
    (s.len.val < 6 → exec .noiseB s = .next { s with fault := .invalidIndex })

/-- R89, R98: every legal draw is possible. Whatever legal i, or b and i, some source of randomness
makes NOISE.S, or NOISE.B, increment exactly those elements; b = 0 leaves BUF unchanged. The source
of randomness is the model's form of the draws (log entry 6); the machine's own is Config.draw. -/
def Obligations.EveryLegalDrawIsPossible : Prop :=
  ∀ s : State, s.fault = .none →
    (∀ i, i < s.len.val → ∃ stream : Nat → Nat,
      noiseSingleChecked stream s = { perturb s i with drawn := s.drawn + 1 }) ∧
    (6 ≤ s.len.val → ∀ b i, b ≤ 5 → i + b ≤ s.len.val → ∃ stream : Nat → Nat,
      noiseBurstChecked stream s = { perturbRun b i s with drawn := s.drawn + 2 }) ∧
    (6 ≤ s.len.val → ∃ stream : Nat → Nat, (noiseBurstChecked stream s).buf = s.buf) ∧
    exec .noiseS s = .next (noiseSingleChecked Config.draw s) ∧
    exec .noiseB s = .next (noiseBurstChecked Config.draw s)

/-- R97: for every source of randomness, no NOISE operation changes an element at index LEN or above.
NOISE.S changes at most the one element it draws, which is below LEN where its precondition holds;
NOISE.B at most the drawn run, of at most five elements, which ends at LEN or before where its
precondition holds. The drawn indices are computed as the operations compute them; the source is the
model's form of the draws (log entry 6). -/
def Obligations.NoiseStaysBelowLen : Prop :=
  ∀ (stream : Nat → Nat) (s : State),
    (∀ k, s.len.val ≤ k →
      Memory.read (noiseSingleChecked stream s).buf k = Memory.read s.buf k ∧
      Memory.read (noiseBurstChecked stream s).buf k = Memory.read s.buf k) ∧
    (1 ≤ s.len.val → pick (s.nextDraw stream) s.len < s.len.val) ∧
    (∀ k, k ≠ pick (s.nextDraw stream) s.len →
      Memory.read (noiseSingleChecked stream s).buf k = Memory.read s.buf k) ∧
    ∀ b i, b = pick (s.nextDraw stream) (Config.burstMax + 1) →
      i = pick (s.advanceDraw.nextDraw stream) (s.len - b + 1) →
      b ≤ 5 ∧ (6 ≤ s.len.val → i + b ≤ s.len.val) ∧
      ∀ k, ¬(i ≤ k ∧ k < i + b) →
        Memory.read (noiseBurstChecked stream s).buf k = Memory.read s.buf k

/-- R92: the increment flips exactly the bits up to and including the lowest 0 bit, all of them when
there is none; the lower codeword is incremented modulo 128 and the upper one only when the lower is
127. -/
def Obligations.IncrementFlipsTheTrailingOnes : Prop :=
  ∀ (s : State) (k : Nat), ∃ e f : EncodedByte, s.readBuf k = e ∧ (perturb s k).readBuf k = f ∧
    (∃ t, t ≤ 14 ∧ (∀ j, j < t → e.getLsbD j = true) ∧ e.getLsbD t = false ∧
      ∀ j, j < 14 → f.getLsbD j = (e.getLsbD j ^^ decide (j ≤ t))) ∧
    f.extractLsb' 0 7 = e.extractLsb' 0 7 + 1#7 ∧
    f.extractLsb' 7 7 =
      if e.extractLsb' 0 7 = 127#7 then e.extractLsb' 7 7 + 1#7 else e.extractLsb' 7 7

/-- R99: what a freshly encoded byte decodes to after one increment, in its three cases, and which
bytes survive, 128 of the 256. -/
def Obligations.FreshByteAfterOneIncrement : Prop :=
  ((List.range 256).countP fun k =>
    (decByte (increment (encByte (BitVec.ofNat 8 k)))).1 = BitVec.ofNat 8 k) = 128 ∧
  ∀ (u l : Nibble) (s : State), s.fault = .none →
    (l ≠ 15#4 →
      exec (.decb (increment (encByte (joinNibbles u l)))) s =
        .next { s with res := (joinNibbles u (incrementedNibble l)).setWidth 14,
                       ncor := BitVec.ofNat 2 (incrementedCount l) } ∧
      (incrementedNibble l = l ↔ l ∈ survivingNibbles)) ∧
    (l = 15#4 → u ≠ 15#4 →
      exec (.decb (increment (encByte (joinNibbles u l)))) s =
        .next { s with res := (joinNibbles (incrementedNibble u) 0#4).setWidth 14,
                       ncor := BitVec.ofNat 2 (incrementedCount u) }) ∧
    (l = 15#4 → u = 15#4 →
      exec (.decb (increment (encByte (joinNibbles u l)))) s =
        .next { s with res := 0#14, ncor := 0#2 })

/-- R120: after ENCM, NOISE.S, DECM the element hit comes back exactly when it had a surviving lower
nibble, every other element comes back, and no correction is counted exactly for the lower nibbles 6
and 8 and the bytes 0x6F, 0x8F and 0xFF. -/
def Obligations.SingleNoiseCycleRestoresOnlySurvivors : Prop :=
  ∀ s : State, s.fault = .none → s.TextWritten → 1 ≤ s.len.val →
    ∃ (i : Nat) (t : State), i < s.len.val ∧
      execAll [.encm, .noiseS, .decm] s = .next t ∧ t.len = s.len ∧
      (∀ k, k < s.len.val → k ≠ i → t.readTxt k = s.readTxt k) ∧
      (t.readTxt i = s.readTxt i ↔ lowerNibble (s.readTxt i) ∈ survivingNibbles) ∧
      (t.cnt.val = 0 ↔ lowerNibble (s.readTxt i) = 6#4 ∨ lowerNibble (s.readTxt i) = 8#4 ∨
        s.readTxt i = 0x6F#8 ∨ s.readTxt i = 0x8F#8 ∨ s.readTxt i = 0xFF#8)

/-! ### The fault -/

/-- R108, on the conditions of R96: an inadmissible NOISE operation sets FAULT and changes nothing
else, for every source of randomness and with no draw made; FAULT then reads as 1 (R104). -/
def Obligations.InvalidIndexEntrySetsOnlyFault : Prop :=
  ∀ s : State, s.fault = .none →
    (s.len.val < 1 → exec .noiseS s = .next { s with fault := .invalidIndex } ∧
      ∀ stream, noiseSingleChecked stream s = { s with fault := .invalidIndex }) ∧
    (s.len.val < 6 → exec .noiseB s = .next { s with fault := .invalidIndex } ∧
      ∀ stream, noiseBurstChecked stream s = { s with fault := .invalidIndex }) ∧
    hostRead .fault s = .fault 0#1 ∧
    hostRead .fault { s with fault := .invalidIndex } = .fault 1#1

/-- R109: while FAULT is set every operation changes nothing at all. -/
def Obligations.FaultedBlockPerformsNothing : Prop :=
  ∀ (i : Instr) (s : State), s.fault = .invalidIndex → exec i s = .next s

/-- R23, R104, R109 over the whole machine: after a step FAULT is set exactly when it was set before
and the step was no reset, or the step issued a NOISE operation whose precondition failed. The step's
move is the next one in `queue` (log entry 1). -/
def Obligations.FaultIsSetAndClearedOnlySo : Prop :=
  ∀ s t : State, step s = .next t →
    (t.fault = .invalidIndex ↔
      (s.fault = .invalidIndex ∧ ∀ rest, s.queue ≠ .reset :: rest) ∨
      (s.fault = .none ∧ ∃ (w : CmdWord) (rest : List HostAction),
        s.queue = .issue w :: rest ∧ ¬preconditionHolds (decode w) s))

/-- R101: the seven coding operations raise nothing, for any operand and any contents of the state. -/
def Obligations.CodingOperationsRaiseNothing : Prop :=
  ∀ (i : Instr) (s : State), isCoding i → ∃ t, exec i s = .next t ∧ t.fault = s.fault

/-! ### Frames and whole-machine rules -/

/-- R29, the scalar rows: ENCN, SYND and ENCB change at most RES; DECN and DECB at most RES and NCOR. -/
def Obligations.FrameOfScalarOperations : Prop :=
  ∀ (i : Instr) (s t : State), exec i s = .next t →
    (match i with
      | .encn _ | .synd _ | .encb _ => t.ncor = s.ncor ∧ t = { s with res := t.res }
      | .decn _ | .decb _ => t = { s with res := t.res, ncor := t.ncor }
      | .encm | .decm | .noiseS | .noiseB => True) ∧
    (isCoding i → i ≠ .encm → i ≠ .decm → ∀ k, t.readTxt k = s.readTxt k ∧ t.readBuf k = s.readBuf k)

/-- R29, the message rows: ENCM changes only elements of BUF below LEN; DECM only elements of TXT
below LEN, and CNT. -/
def Obligations.FrameOfMessageOperations : Prop :=
  ∀ s t : State,
    (exec .encm s = .next t → t = { s with buf := t.buf } ∧
      (∀ k, t.readTxt k = s.readTxt k) ∧
      ∀ k, s.len.val ≤ k → t.readBuf k = s.readBuf k) ∧
    (exec .decm s = .next t → t = { s with txt := t.txt, cnt := t.cnt } ∧
      (∀ k, t.readBuf k = s.readBuf k) ∧
      ∀ k, s.len.val ≤ k → t.readTxt k = s.readTxt k)

/-- R29, the NOISE rows: the drawn elements of BUF, or FAULT, and nothing else; the drawn indices are
computed as the operation computes them. `drawn` is the model's own count (log entry 6). -/
def Obligations.FrameOfNoiseOperations : Prop :=
  ∀ s t : State,
    (exec .noiseS s = .next t →
      t = { s with buf := t.buf, fault := t.fault, drawn := t.drawn } ∧
      (t.buf = s.buf ∨ t.fault = s.fault) ∧
      (∀ k, t.readTxt k = s.readTxt k) ∧
      ∀ k, k ≠ pick (s.nextDraw Config.draw) s.len → t.readBuf k = s.readBuf k) ∧
    (exec .noiseB s = .next t →
      t = { s with buf := t.buf, fault := t.fault, drawn := t.drawn } ∧
      (t.buf = s.buf ∨ t.fault = s.fault) ∧
      (∀ k, t.readTxt k = s.readTxt k) ∧
      ∀ b i k, b = pick (s.nextDraw Config.draw) 6 →
        i = pick (s.advanceDraw.nextDraw Config.draw) (s.len - b + 1) →
        ¬(i ≤ k ∧ k < i + b) → t.readBuf k = s.readBuf k)

/-- R35, R29: no operation reads or writes an element at index LEN or above. Two states that agree on
everything else, the model's count of draws among it (log entry 6), are taken to states that agree on
everything else, and those elements stay. -/
def Obligations.ElementsAboveLenAreNeitherReadNorWritten : Prop :=
  ∀ (i : Instr) (s t : State), s.AgreeBelowLen t →
    ∃ s' t' : State, exec i s = .next s' ∧ exec i t = .next t' ∧ s'.AgreeBelowLen t' ∧
      ∀ k, s.len.val ≤ k →
        s'.readTxt k = s.readTxt k ∧ s'.readBuf k = s.readBuf k ∧
        t'.readTxt k = t.readTxt k ∧ t'.readBuf k = t.readBuf k

/-- R19: LEN changes only by a host write or a reset; R20, R21, R22: RES, NCOR and CNT only by the
operations that write them or a reset; R38: the host cannot write them. The step's move is the next one
in `queue` (log entry 1). -/
def Obligations.RegistersChangeOnlyByTheirWriters : Prop :=
  ∀ s t : State, step s = .next t →
    (t.len = s.len ∨ (∃ n rest, s.queue = .putLen n :: rest) ∨ ∃ rest, s.queue = .reset :: rest) ∧
    (t.res = s.res ∨ (∃ rest, s.queue = .reset :: rest) ∨
      ∃ w rest, s.queue = .issue w :: rest ∧ (w.extractLsb' 14 3).toNat ≤ 4) ∧
    (t.ncor = s.ncor ∨ (∃ rest, s.queue = .reset :: rest) ∨
      ∃ w rest, s.queue = .issue w :: rest ∧
        (w.extractLsb' 14 3 = 2#3 ∨ w.extractLsb' 14 3 = 4#3)) ∧
    (t.cnt = s.cnt ∨ (∃ rest, s.queue = .reset :: rest) ∨
      ∃ w rest, s.queue = .issue w :: rest ∧ w.extractLsb' 14 3 = 6#3)

/-- Every step keeps the invariant: both memories in canonical form with no element at MAXLEN or
above (R17, R18, R35, R38), and NCOR never 3 (R21). -/
def Obligations.StepKeepsTheInvariant : Prop :=
  ∀ s t : State, s.Inv → step s = .next t → t.Inv

/-- The invariant holds right after reset. -/
def Obligations.ResetMeetsTheInvariant : Prop := State.reset.Inv
end

