-- ==== Sys2Proof/Laws/Codec.lean ====
section
/-! SUPPORT. The small facts about the pure functions that the proofs about operations cite. -/

namespace Sys2Proof.Machine

theorem getLsbD_joinCodewords (u l : Codeword) (i : Nat) :
    (joinCodewords u l).getLsbD i = if i < 7 then l.getLsbD i else u.getLsbD (i - 7) :=
  BitVec.getLsbD_append

theorem getLsbD_joinNibbles (u l : Nibble) (i : Nat) :
    (joinNibbles u l).getLsbD i = if i < 4 then l.getLsbD i else u.getLsbD (i - 4) :=
  BitVec.getLsbD_append

@[simp] theorem upperCodeword_join (u l : Codeword) : upperCodeword (joinCodewords u l) = u :=
  BitVec.eq_of_getLsbD_eq fun i hi => by
    simp [upperCodeword, getLsbD_joinCodewords, hi]

@[simp] theorem lowerCodeword_join (u l : Codeword) : lowerCodeword (joinCodewords u l) = l :=
  BitVec.eq_of_getLsbD_eq fun i hi => by
    simp [lowerCodeword, getLsbD_joinCodewords, hi]

/-- Every encoded byte is its two halves. -/
theorem join_halves (e : EncodedByte) : joinCodewords (upperCodeword e) (lowerCodeword e) = e :=
  BitVec.eq_of_getLsbD_eq fun i hi => by
    rw [getLsbD_joinCodewords]
    split
    · simp [lowerCodeword, *]
    · simp [upperCodeword, show i - 7 < 7 by omega,
        show 7 + (i - 7) = i by omega]

/-- Every byte is its two nibbles. -/
theorem join_nibbles (b : Byte) : joinNibbles (upperNibble b) (lowerNibble b) = b :=
  BitVec.eq_of_getLsbD_eq fun i hi => by
    rw [getLsbD_joinNibbles]
    split
    · simp [lowerNibble, *]
    · simp [upperNibble, show i - 4 < 4 by omega,
        show 4 + (i - 4) = i by omega]

/-- The codeword of a nibble decodes to it and needs no correction. -/
theorem dec_enc (n : Nibble) : dec (enc n) = (n, false) := by
  revert n
  decide

theorem enc_xor (a b : Nibble) : enc (a ^^^ b) = enc a ^^^ enc b := by
  revert a b
  decide

theorem getLsbD_syn (w : Codeword) :
    ∀ i < 3, (syn w).getLsbD i =
      if i = 0 then (w.getLsbD 2 ^^ w.getLsbD 4 ^^ w.getLsbD 6 ^^ w.getLsbD 0)
      else if i = 1 then (w.getLsbD 2 ^^ w.getLsbD 5 ^^ w.getLsbD 6 ^^ w.getLsbD 1)
      else (w.getLsbD 4 ^^ w.getLsbD 5 ^^ w.getLsbD 6 ^^ w.getLsbD 3) := by
  revert w
  decide

theorem syn_xor (a b : Codeword) : syn (a ^^^ b) = syn a ^^^ syn b := by
  apply BitVec.eq_of_getLsbD_eq
  intro i hi
  rw [BitVec.getLsbD_xor, getLsbD_syn _ i hi, getLsbD_syn _ i hi, getLsbD_syn _ i hi]
  simp only [BitVec.getLsbD_xor]
  split
  · simp only [Bool.xor_assoc, Bool.xor_comm, Bool.xor_left_comm]
  · split <;> simp only [Bool.xor_assoc, Bool.xor_comm, Bool.xor_left_comm]

theorem zext14_xor {w : Nat} (a b : BitVec w) : zext14 a ^^^ zext14 b = zext14 (a ^^^ b) := by
  simp [zext14]

end Sys2Proof.Machine
end

