-- ==== Sys2Proof/Laws/State.lean ====
section
/-! SUPPORT. One lemma per field of the state per update of it, and how element reads see an update,
so that no later proof unfolds a record update. -/

namespace Sys2Proof.Machine

@[simp] theorem State.writeTxt_txt (s : State) (k : Nat) (v : Byte) : (s.writeTxt k v).txt = Memory.write s.txt k v := rfl
@[simp] theorem State.writeTxt_buf (s : State) (k : Nat) (v : Byte) : (s.writeTxt k v).buf = s.buf := rfl
@[simp] theorem State.writeTxt_len (s : State) (k : Nat) (v : Byte) : (s.writeTxt k v).len = s.len := rfl
@[simp] theorem State.writeTxt_res (s : State) (k : Nat) (v : Byte) : (s.writeTxt k v).res = s.res := rfl
@[simp] theorem State.writeTxt_ncor (s : State) (k : Nat) (v : Byte) : (s.writeTxt k v).ncor = s.ncor := rfl
@[simp] theorem State.writeTxt_cnt (s : State) (k : Nat) (v : Byte) : (s.writeTxt k v).cnt = s.cnt := rfl
@[simp] theorem State.writeTxt_fault (s : State) (k : Nat) (v : Byte) : (s.writeTxt k v).fault = s.fault := rfl
@[simp] theorem State.writeTxt_queue (s : State) (k : Nat) (v : Byte) : (s.writeTxt k v).queue = s.queue := rfl
@[simp] theorem State.writeTxt_drawn (s : State) (k : Nat) (v : Byte) : (s.writeTxt k v).drawn = s.drawn := rfl
@[simp] theorem State.writeTxt_epoch (s : State) (k : Nat) (v : Byte) : (s.writeTxt k v).epoch = s.epoch := rfl
@[simp] theorem State.readBuf_writeTxt (s : State) (k : Nat) (v : Byte) (j : Nat) : (s.writeTxt k v).readBuf j = s.readBuf j := rfl

@[simp] theorem State.writeBuf_txt (s : State) (k : Nat) (v : EncodedByte) : (s.writeBuf k v).txt = s.txt := rfl
@[simp] theorem State.writeBuf_buf (s : State) (k : Nat) (v : EncodedByte) : (s.writeBuf k v).buf = Memory.write s.buf k v := rfl
@[simp] theorem State.writeBuf_len (s : State) (k : Nat) (v : EncodedByte) : (s.writeBuf k v).len = s.len := rfl
@[simp] theorem State.writeBuf_res (s : State) (k : Nat) (v : EncodedByte) : (s.writeBuf k v).res = s.res := rfl
@[simp] theorem State.writeBuf_ncor (s : State) (k : Nat) (v : EncodedByte) : (s.writeBuf k v).ncor = s.ncor := rfl
@[simp] theorem State.writeBuf_cnt (s : State) (k : Nat) (v : EncodedByte) : (s.writeBuf k v).cnt = s.cnt := rfl
@[simp] theorem State.writeBuf_fault (s : State) (k : Nat) (v : EncodedByte) : (s.writeBuf k v).fault = s.fault := rfl
@[simp] theorem State.writeBuf_queue (s : State) (k : Nat) (v : EncodedByte) : (s.writeBuf k v).queue = s.queue := rfl
@[simp] theorem State.writeBuf_drawn (s : State) (k : Nat) (v : EncodedByte) : (s.writeBuf k v).drawn = s.drawn := rfl
@[simp] theorem State.writeBuf_epoch (s : State) (k : Nat) (v : EncodedByte) : (s.writeBuf k v).epoch = s.epoch := rfl
@[simp] theorem State.readTxt_writeBuf (s : State) (k : Nat) (v : EncodedByte) (j : Nat) : (s.writeBuf k v).readTxt j = s.readTxt j := rfl

@[simp] theorem State.writeRes_txt (s : State) {w : Nat} (v : BitVec w) : (s.writeRes v).txt = s.txt := rfl
@[simp] theorem State.writeRes_buf (s : State) {w : Nat} (v : BitVec w) : (s.writeRes v).buf = s.buf := rfl
@[simp] theorem State.writeRes_len (s : State) {w : Nat} (v : BitVec w) : (s.writeRes v).len = s.len := rfl
@[simp] theorem State.writeRes_res (s : State) {w : Nat} (v : BitVec w) : (s.writeRes v).res = zext14 v := rfl
@[simp] theorem State.writeRes_ncor (s : State) {w : Nat} (v : BitVec w) : (s.writeRes v).ncor = s.ncor := rfl
@[simp] theorem State.writeRes_cnt (s : State) {w : Nat} (v : BitVec w) : (s.writeRes v).cnt = s.cnt := rfl
@[simp] theorem State.writeRes_fault (s : State) {w : Nat} (v : BitVec w) : (s.writeRes v).fault = s.fault := rfl
@[simp] theorem State.writeRes_queue (s : State) {w : Nat} (v : BitVec w) : (s.writeRes v).queue = s.queue := rfl
@[simp] theorem State.writeRes_drawn (s : State) {w : Nat} (v : BitVec w) : (s.writeRes v).drawn = s.drawn := rfl
@[simp] theorem State.writeRes_epoch (s : State) {w : Nat} (v : BitVec w) : (s.writeRes v).epoch = s.epoch := rfl
@[simp] theorem State.readTxt_writeRes (s : State) {w : Nat} (v : BitVec w) (j : Nat) : (s.writeRes v).readTxt j = s.readTxt j := rfl
@[simp] theorem State.readBuf_writeRes (s : State) {w : Nat} (v : BitVec w) (j : Nat) : (s.writeRes v).readBuf j = s.readBuf j := rfl

@[simp] theorem State.writeNcor_txt (s : State) (v : BitVec 2) : (s.writeNcor v).txt = s.txt := rfl
@[simp] theorem State.writeNcor_buf (s : State) (v : BitVec 2) : (s.writeNcor v).buf = s.buf := rfl
@[simp] theorem State.writeNcor_len (s : State) (v : BitVec 2) : (s.writeNcor v).len = s.len := rfl
@[simp] theorem State.writeNcor_res (s : State) (v : BitVec 2) : (s.writeNcor v).res = s.res := rfl
@[simp] theorem State.writeNcor_ncor (s : State) (v : BitVec 2) : (s.writeNcor v).ncor = v := rfl
@[simp] theorem State.writeNcor_cnt (s : State) (v : BitVec 2) : (s.writeNcor v).cnt = s.cnt := rfl
@[simp] theorem State.writeNcor_fault (s : State) (v : BitVec 2) : (s.writeNcor v).fault = s.fault := rfl
@[simp] theorem State.writeNcor_queue (s : State) (v : BitVec 2) : (s.writeNcor v).queue = s.queue := rfl
@[simp] theorem State.writeNcor_drawn (s : State) (v : BitVec 2) : (s.writeNcor v).drawn = s.drawn := rfl
@[simp] theorem State.writeNcor_epoch (s : State) (v : BitVec 2) : (s.writeNcor v).epoch = s.epoch := rfl
@[simp] theorem State.readTxt_writeNcor (s : State) (v : BitVec 2) (j : Nat) : (s.writeNcor v).readTxt j = s.readTxt j := rfl
@[simp] theorem State.readBuf_writeNcor (s : State) (v : BitVec 2) (j : Nat) : (s.writeNcor v).readBuf j = s.readBuf j := rfl

@[simp] theorem State.writeCnt_txt (s : State) (v : Fin (2 * Config.maxLen + 1)) : (s.writeCnt v).txt = s.txt := rfl
@[simp] theorem State.writeCnt_buf (s : State) (v : Fin (2 * Config.maxLen + 1)) : (s.writeCnt v).buf = s.buf := rfl
@[simp] theorem State.writeCnt_len (s : State) (v : Fin (2 * Config.maxLen + 1)) : (s.writeCnt v).len = s.len := rfl
@[simp] theorem State.writeCnt_res (s : State) (v : Fin (2 * Config.maxLen + 1)) : (s.writeCnt v).res = s.res := rfl
@[simp] theorem State.writeCnt_ncor (s : State) (v : Fin (2 * Config.maxLen + 1)) : (s.writeCnt v).ncor = s.ncor := rfl
@[simp] theorem State.writeCnt_cnt (s : State) (v : Fin (2 * Config.maxLen + 1)) : (s.writeCnt v).cnt = v := rfl
@[simp] theorem State.writeCnt_fault (s : State) (v : Fin (2 * Config.maxLen + 1)) : (s.writeCnt v).fault = s.fault := rfl
@[simp] theorem State.writeCnt_queue (s : State) (v : Fin (2 * Config.maxLen + 1)) : (s.writeCnt v).queue = s.queue := rfl
@[simp] theorem State.writeCnt_drawn (s : State) (v : Fin (2 * Config.maxLen + 1)) : (s.writeCnt v).drawn = s.drawn := rfl
@[simp] theorem State.writeCnt_epoch (s : State) (v : Fin (2 * Config.maxLen + 1)) : (s.writeCnt v).epoch = s.epoch := rfl
@[simp] theorem State.readTxt_writeCnt (s : State) (v : Fin (2 * Config.maxLen + 1)) (j : Nat) : (s.writeCnt v).readTxt j = s.readTxt j := rfl
@[simp] theorem State.readBuf_writeCnt (s : State) (v : Fin (2 * Config.maxLen + 1)) (j : Nat) : (s.writeCnt v).readBuf j = s.readBuf j := rfl

@[simp] theorem State.writeLen_txt (s : State) (v : Fin (Config.maxLen + 1)) : (s.writeLen v).txt = s.txt := rfl
@[simp] theorem State.writeLen_buf (s : State) (v : Fin (Config.maxLen + 1)) : (s.writeLen v).buf = s.buf := rfl
@[simp] theorem State.writeLen_len (s : State) (v : Fin (Config.maxLen + 1)) : (s.writeLen v).len = v := rfl
@[simp] theorem State.writeLen_res (s : State) (v : Fin (Config.maxLen + 1)) : (s.writeLen v).res = s.res := rfl
@[simp] theorem State.writeLen_ncor (s : State) (v : Fin (Config.maxLen + 1)) : (s.writeLen v).ncor = s.ncor := rfl
@[simp] theorem State.writeLen_cnt (s : State) (v : Fin (Config.maxLen + 1)) : (s.writeLen v).cnt = s.cnt := rfl
@[simp] theorem State.writeLen_fault (s : State) (v : Fin (Config.maxLen + 1)) : (s.writeLen v).fault = s.fault := rfl
@[simp] theorem State.writeLen_queue (s : State) (v : Fin (Config.maxLen + 1)) : (s.writeLen v).queue = s.queue := rfl
@[simp] theorem State.writeLen_drawn (s : State) (v : Fin (Config.maxLen + 1)) : (s.writeLen v).drawn = s.drawn := rfl
@[simp] theorem State.writeLen_epoch (s : State) (v : Fin (Config.maxLen + 1)) : (s.writeLen v).epoch = s.epoch := rfl
@[simp] theorem State.readTxt_writeLen (s : State) (v : Fin (Config.maxLen + 1)) (j : Nat) : (s.writeLen v).readTxt j = s.readTxt j := rfl
@[simp] theorem State.readBuf_writeLen (s : State) (v : Fin (Config.maxLen + 1)) (j : Nat) : (s.writeLen v).readBuf j = s.readBuf j := rfl

@[simp] theorem State.advanceDraw_txt (s : State) : (s.advanceDraw).txt = s.txt := rfl
@[simp] theorem State.advanceDraw_buf (s : State) : (s.advanceDraw).buf = s.buf := rfl
@[simp] theorem State.advanceDraw_len (s : State) : (s.advanceDraw).len = s.len := rfl
@[simp] theorem State.advanceDraw_res (s : State) : (s.advanceDraw).res = s.res := rfl
@[simp] theorem State.advanceDraw_ncor (s : State) : (s.advanceDraw).ncor = s.ncor := rfl
@[simp] theorem State.advanceDraw_cnt (s : State) : (s.advanceDraw).cnt = s.cnt := rfl
@[simp] theorem State.advanceDraw_fault (s : State) : (s.advanceDraw).fault = s.fault := rfl
@[simp] theorem State.advanceDraw_queue (s : State) : (s.advanceDraw).queue = s.queue := rfl
@[simp] theorem State.advanceDraw_drawn (s : State) : (s.advanceDraw).drawn = s.drawn + 1 := rfl
@[simp] theorem State.advanceDraw_epoch (s : State) : (s.advanceDraw).epoch = s.epoch := rfl
@[simp] theorem State.readTxt_advanceDraw (s : State) (j : Nat) : (s.advanceDraw).readTxt j = s.readTxt j := rfl
@[simp] theorem State.readBuf_advanceDraw (s : State) (j : Nat) : (s.advanceDraw).readBuf j = s.readBuf j := rfl

@[simp] theorem State.raiseInvalidIndex_txt (s : State) : (s.raiseInvalidIndex).txt = s.txt := rfl
@[simp] theorem State.raiseInvalidIndex_buf (s : State) : (s.raiseInvalidIndex).buf = s.buf := rfl
@[simp] theorem State.raiseInvalidIndex_len (s : State) : (s.raiseInvalidIndex).len = s.len := rfl
@[simp] theorem State.raiseInvalidIndex_res (s : State) : (s.raiseInvalidIndex).res = s.res := rfl
@[simp] theorem State.raiseInvalidIndex_ncor (s : State) : (s.raiseInvalidIndex).ncor = s.ncor := rfl
@[simp] theorem State.raiseInvalidIndex_cnt (s : State) : (s.raiseInvalidIndex).cnt = s.cnt := rfl
@[simp] theorem State.raiseInvalidIndex_fault (s : State) : (s.raiseInvalidIndex).fault = .invalidIndex := rfl
@[simp] theorem State.raiseInvalidIndex_queue (s : State) : (s.raiseInvalidIndex).queue = s.queue := rfl
@[simp] theorem State.raiseInvalidIndex_drawn (s : State) : (s.raiseInvalidIndex).drawn = s.drawn := rfl
@[simp] theorem State.raiseInvalidIndex_epoch (s : State) : (s.raiseInvalidIndex).epoch = s.epoch := rfl
@[simp] theorem State.readTxt_raiseInvalidIndex (s : State) (j : Nat) : (s.raiseInvalidIndex).readTxt j = s.readTxt j := rfl
@[simp] theorem State.readBuf_raiseInvalidIndex (s : State) (j : Nat) : (s.raiseInvalidIndex).readBuf j = s.readBuf j := rfl

end Sys2Proof.Machine
end

