-- ==== Sys2Proof/Laws/Memory.lean ====
section
/-! SUPPORT. One memory: a read after a write, every write keeps the canonical form, and two memories
in canonical form with the same reads are the same data. -/

namespace Sys2Proof.Machine

theorem Memory.read_write {w : Nat} (m : Memory w) (k : Nat) (v : BitVec w) (j : Nat) :
    Memory.read (Memory.write m k v) j = if j = k then some v else Memory.read m j := by
  induction m with
  | nil => simp [Memory.write, Memory.read]
  | cons c m ih =>
    obtain ⟨a, x⟩ := c
    rw [Memory.write]
    split
    · simp [Memory.read]
    · split
      · subst k
        by_cases hj : j = a <;> simp [Memory.read, hj]
      · simp only [Memory.read, ih]
        by_cases hj : j = a
        · subst hj
          simp [show ¬j = k by omega]
        · simp [hj]

@[simp] theorem Memory.read_write_same {w : Nat} (m : Memory w) (k : Nat) (v : BitVec w) :
    Memory.read (Memory.write m k v) k = some v := by
  simp [Memory.read_write]

theorem Memory.read_write_other {w : Nat} (m : Memory w) {k j : Nat} (v : BitVec w) (h : j ≠ k) :
    Memory.read (Memory.write m k v) j = Memory.read m j := by
  simp [Memory.read_write, h]

theorem Memory.mem_write {w : Nat} {m : Memory w} {k : Nat} {v : BitVec w} {c : Nat × BitVec w}
    (h : c ∈ Memory.write m k v) : c = (k, v) ∨ c ∈ m := by
  induction m with
  | nil => exact .inl (List.mem_singleton.mp h)
  | cons d m ih =>
    obtain ⟨a, x⟩ := d
    rw [Memory.write] at h
    split at h
    · simpa using h
    · split at h
      · rcases List.mem_cons.mp h with h | h
        · exact .inl h
        · exact .inr (List.mem_cons_of_mem _ h)
      · rcases List.mem_cons.mp h with h | h
        · exact .inr (h ▸ List.mem_cons_self)
        · exact (ih h).imp_right (List.mem_cons_of_mem _)

/-- A write keeps the canonical form. -/
theorem Memory.wf_write {w : Nat} {m : Memory w} (h : Memory.wf m) (k : Nat) (v : BitVec w) :
    Memory.wf (Memory.write m k v) := by
  induction m with
  | nil => simp [Memory.write, Memory.wf]
  | cons d m ih =>
    obtain ⟨a, x⟩ := d
    obtain ⟨ha, hm⟩ := List.pairwise_cons.mp h
    rw [Memory.write]
    split
    · refine List.pairwise_cons.mpr ⟨fun c hc => ?_, h⟩
      rcases List.mem_cons.mp hc with rfl | hc
      · assumption
      · exact Nat.lt_trans ‹k < a› (ha c hc)
    · split
      · subst k
        exact List.pairwise_cons.mpr ⟨ha, hm⟩
      · refine List.pairwise_cons.mpr ⟨fun c hc => ?_, ih hm⟩
        rcases Memory.mem_write hc with rfl | hc
        · show a < k
          omega
        · exact ha c hc

/-- A write below a bound keeps every index below it. -/
theorem Memory.below_write {w : Nat} {m : Memory w} {n k : Nat} (h : Memory.below m n) (hk : k < n)
    (v : BitVec w) : Memory.below (Memory.write m k v) n := fun c hc =>
  (Memory.mem_write hc).elim (fun e => e ▸ hk) (h c)

/-- An index at or above every listed one is not listed. -/
theorem Memory.read_eq_none {w : Nat} {m : Memory w} {k : Nat} (h : ∀ c ∈ m, c.1 ≠ k) :
    Memory.read m k = none := by
  induction m with
  | nil => rfl
  | cons c m ih =>
    have hc : k ≠ c.1 := fun e => h c List.mem_cons_self e.symm
    simp only [Memory.read, hc, if_false]
    exact ih fun d hd => h d (List.mem_cons_of_mem _ hd)

theorem Memory.read_of_below {w : Nat} {m : Memory w} {n k : Nat} (h : Memory.below m n) (hk : n ≤ k) :
    Memory.read m k = none :=
  Memory.read_eq_none fun c hc e => absurd (h c hc) (by omega)

/-- In canonical form the reads determine the data. -/
theorem Memory.ext_read {w : Nat} {m n : Memory w} (hm : Memory.wf m) (hn : Memory.wf n)
    (h : ∀ k, Memory.read m k = Memory.read n k) : m = n := by
  induction m generalizing n with
  | nil =>
    cases n with
    | nil => rfl
    | cons d n => simpa [Memory.read] using h d.1
  | cons c m ih =>
    obtain ⟨a, x⟩ := c
    obtain ⟨ha, hm'⟩ := List.pairwise_cons.mp hm
    cases n with
    | nil => simpa [Memory.read] using h a
    | cons d n =>
      obtain ⟨b, y⟩ := d
      obtain ⟨hb, hn'⟩ := List.pairwise_cons.mp hn
      have hab : a = b := by
        have above {m : Memory w} {i j : Nat} (hi : ∀ c ∈ m, i < c.1) (hj : j ≤ i) :
            Memory.read m j = none :=
          Memory.read_eq_none fun c hc e => absurd (hi c hc) (by omega)
        rcases Nat.lt_trichotomy a b with hlt | heq | hgt
        · have := h a
          simp [Memory.read, Nat.ne_of_lt hlt, above hb (Nat.le_of_lt hlt)] at this
        · exact heq
        · have := h b
          simp [Memory.read, Nat.ne_of_lt hgt, above ha (Nat.le_of_lt hgt)] at this
      subst hab
      have hxy : x = y := by simpa [Memory.read] using h a
      subst hxy
      congr 1
      refine ih hm' hn' fun k => ?_
      by_cases hk : k = a
      · subst hk
        rw [Memory.read_eq_none fun c hc e => absurd (ha c hc) (by omega),
          Memory.read_eq_none fun c hc e => absurd (hb c hc) (by omega)]
      · simpa [Memory.read, hk] using h k

end Sys2Proof.Machine
end

