-- ==== Sys2Proof/Laws/Ops.lean ====
section
/-! SUPPORT. What each shared operation can do, said once: element reads after element writes,
performing an operation, the loops of the message operations, and the draws. -/

namespace Sys2Proof.Machine

/-! ### Elements -/

theorem State.readTxt_writeTxt (s : State) (k : Nat) (v : Byte) (j : Nat) :
    (s.writeTxt k v).readTxt j = if j = k then v else s.readTxt j := by
  by_cases h : j = k <;> simp [State.readTxt, Memory.read_write, h]

theorem State.readBuf_writeBuf (s : State) (k : Nat) (v : EncodedByte) (j : Nat) :
    (s.writeBuf k v).readBuf j = if j = k then v else s.readBuf j := by
  by_cases h : j = k <;> simp [State.readBuf, Memory.read_write, h]

/-! ### Performing an operation -/

theorem perform_none {s : State} (h : s.fault = .none) (f : State → State) :
    perform s f = .next (f s) := by
  simp [perform, h]

theorem perform_invalidIndex {s : State} (h : s.fault = .invalidIndex) (f : State → State) :
    perform s f = .next s := by
  simp [perform, h]

/-- Performing an operation always ends in a next state, and there are two ways. -/
theorem perform_cases {s t : State} {f : State → State} (h : perform s f = .next t) :
    (s.fault = .none ∧ t = f s) ∨ (s.fault = .invalidIndex ∧ t = s) := by
  cases hf : s.fault with
  | none => rw [perform_none hf] at h; exact .inl ⟨rfl, (Host.Outcome.next.inj h).symm⟩
  | invalidIndex =>
    rw [perform_invalidIndex hf] at h; exact .inr ⟨rfl, (Host.Outcome.next.inj h).symm⟩

/-! ### The loops -/

/-- A field that the body leaves alone, the loop leaves alone. -/
theorem forEach_keeps {α : Type} (get : State → α) {body : State → Nat → State}
    (h : ∀ s k, get (body s k) = get s) (n : Nat) (s : State) :
    get (forEach body n s) = get s := by
  induction n with
  | zero => rfl
  | succ n ih => rw [forEach, h, ih]

/-- What the body keeps at every index it visits, the loop keeps. -/
theorem forEach_invariant {P : State → Prop} {body : State → Nat → State} {n : Nat} {s : State}
    (h : ∀ t k, k < n → P t → P (body t k)) (hs : P s) : P (forEach body n s) := by
  induction n with
  | zero => exact hs
  | succ n ih => exact h _ n (Nat.lt_succ_self n) (ih fun t k hk => h t k (Nat.lt_succ_of_lt hk))

/-- A body that changes only BUF makes a loop that changes only BUF. -/
theorem forEach_only_buf {body : State → Nat → State}
    (h : ∀ s k, body s k = { s with buf := (body s k).buf }) (n : Nat) (s : State) :
    forEach body n s = { s with buf := (forEach body n s).buf } := by
  induction n with
  | zero => rfl
  | succ n ih =>
    rw [forEach, h (forEach body n s) n]
    generalize (body (forEach body n s) n).buf = m
    rw [ih]

/-- A body that changes only TXT makes a loop that changes only TXT. -/
theorem forEach_only_txt {body : State → Nat → State}
    (h : ∀ s k, body s k = { s with txt := (body s k).txt }) (n : Nat) (s : State) :
    forEach body n s = { s with txt := (forEach body n s).txt } := by
  induction n with
  | zero => rfl
  | succ n ih =>
    rw [forEach, h (forEach body n s) n]
    generalize (body (forEach body n s) n).txt = m
    rw [ih]

theorem encElements_only_buf (n : Nat) (s : State) :
    forEach encElement n s = { s with buf := (forEach encElement n s).buf } :=
  forEach_only_buf (fun _ _ => rfl) n s

theorem decElements_only_txt (n : Nat) (s : State) :
    forEach decElement n s = { s with txt := (forEach decElement n s).txt } :=
  forEach_only_txt (fun _ _ => rfl) n s

theorem perturbRun_only_buf (b i : Nat) (s : State) :
    perturbRun b i s = { s with buf := (perturbRun b i s).buf } :=
  forEach_only_buf (fun _ _ => rfl) b s

theorem encElements_txt (n : Nat) (s : State) : (forEach encElement n s).txt = s.txt :=
  forEach_keeps State.txt (body := encElement) (fun _ _ => rfl) n s

/-- ENCM's loop: BUF after it, index by index (R80). -/
theorem read_encElements (n : Nat) (s : State) (k : Nat) :
    Memory.read (forEach encElement n s).buf k =
      if k < n then some (encByte (s.readTxt k)) else Memory.read s.buf k := by
  induction n with
  | zero => simp [forEach]
  | succ n ih =>
    have ht : (forEach encElement n s).readTxt n = s.readTxt n := by
      have he := forEach_keeps State.epoch (body := encElement) (fun _ _ => rfl) n s
      simp [State.readTxt, encElements_txt, he]
    rw [forEach, encElement, State.writeBuf_buf, Memory.read_write, ht, ih]
    by_cases hk : k = n
    · simp [hk]
    · simp [hk, show k < n + 1 ↔ k < n by omega]

theorem decElements_buf (n : Nat) (s : State) : (forEach decElement n s).buf = s.buf :=
  forEach_keeps State.buf (body := decElement) (fun _ _ => rfl) n s

/-- DECM's loop: TXT after it, index by index (R81). -/
theorem read_decElements (n : Nat) (s : State) (k : Nat) :
    Memory.read (forEach decElement n s).txt k =
      if k < n then some (decByte (s.readBuf k)).1 else Memory.read s.txt k := by
  induction n with
  | zero => simp [forEach]
  | succ n ih =>
    have hb : (forEach decElement n s).readBuf n = s.readBuf n := by
      have he := forEach_keeps State.epoch (body := decElement) (fun _ _ => rfl) n s
      simp [State.readBuf, decElements_buf, he]
    rw [forEach, decElement, State.writeTxt_txt, Memory.read_write, hb, ih]
    by_cases hk : k = n
    · simp [hk]
    · simp [hk, show k < n + 1 ↔ k < n by omega]

theorem perturbRun_succ (b i : Nat) (s : State) :
    perturbRun (b + 1) i s = perturb (perturbRun b i s) (i + b) := rfl

theorem perturbRun_epoch (b i : Nat) (s : State) : (perturbRun b i s).epoch = s.epoch :=
  forEach_keeps State.epoch (body := fun t j => perturb t (i + j)) (fun _ _ => rfl) b s

/-- The run of NOISE.B: BUF after it, index by index (R93). -/
theorem read_perturbRun (b i : Nat) (s : State) (k : Nat) :
    Memory.read (perturbRun b i s).buf k =
      if i ≤ k ∧ k < i + b then some (increment (s.readBuf k)) else Memory.read s.buf k := by
  induction b generalizing k with
  | zero =>
    rw [if_neg (by omega)]
    rfl
  | succ b ih =>
    have he : (perturbRun b i s).epoch = s.epoch := perturbRun_epoch b i s
    have hb : (perturbRun b i s).readBuf (i + b) = s.readBuf (i + b) := by
      rw [State.readBuf, ih, if_neg (by omega), he]
      rfl
    rw [perturbRun_succ, perturb, State.writeBuf_buf, Memory.read_write, hb, ih]
    by_cases hk : k = i + b
    · rw [if_pos hk, if_pos (by omega), hk]
    · rw [if_neg hk]
      by_cases hr : i ≤ k ∧ k < i + b
      · rw [if_pos hr, if_pos (by omega)]
      · rw [if_neg hr, if_neg (by omega)]

/-- DECM's count is the sum of the counts of the elements (R81). -/
theorem correctedTotal_eq_sum (s : State) (n : Nat) :
    correctedTotal s n = ((List.range n).map fun k => (decByte (s.readBuf k)).2).sum := by
  induction n with
  | zero => rfl
  | succ n ih => simp [correctedTotal, ih, List.range_succ]

/-! ### Draws -/

theorem pick_lt (raw : Nat) {n : Nat} (h : 0 < n) : pick raw n < n := Nat.mod_lt raw h

/-- Every member can be drawn. -/
theorem pick_of_lt {x n : Nat} (h : x < n) : pick x n = x := Nat.mod_eq_of_lt h

end Sys2Proof.Machine
end

