-- ==== Sys2Proof/Laws/Exec.lean ====
section
/-! SUPPORT. What `exec` and `step` can do, said once: each operation performs its effect, and each
step is the host's next move. -/

namespace Sys2Proof.Machine

/-- The effect of an operation on a state with FAULT = `None`. -/
def effect (i : Instr) : State → State :=
  match i with
  | .encn n => fun s => s.writeRes (enc n)
  | .synd w => fun s => s.writeRes (syn w)
  | .decn w => fun s => (s.writeRes (dec w).1).writeNcor (ncorOf (correctedCount (dec w).2))
  | .encb b => fun s => s.writeRes (encByte b)
  | .decb e => fun s => (s.writeRes (decByte e).1).writeNcor (ncorOf (decByte e).2)
  | .encm => fun s => forEach encElement s.len s
  | .decm => fun s => (forEach decElement s.len s).writeCnt (messageCount s)
  | .noiseS => noiseSingleChecked Config.draw
  | .noiseB => noiseBurstChecked Config.draw

theorem exec_eq_perform (i : Instr) (s : State) : exec i s = perform s (effect i) := by
  cases i <;> rfl

/-- Every operation ends in a next state, and there are two ways. -/
theorem exec_cases {i : Instr} {s t : State} (h : exec i s = .next t) :
    (s.fault = .none ∧ t = effect i s) ∨ (s.fault = .invalidIndex ∧ t = s) :=
  perform_cases (exec_eq_perform i s ▸ h)

theorem step_of_queue_nil {s : State} (h : s.queue = []) : step s = .next s := by
  simp [step, stepHost, nextMove, h]

theorem step_of_queue_cons {s : State} {a : HostAction} {rest : List HostAction}
    (h : s.queue = a :: rest) : step s = hostMove a { s with queue := rest } := by
  simp [step, stepHost, nextMove, h]

end Sys2Proof.Machine
end

