-- ==== Sys2Proof/Laws/PerInstr.lean ====
section
/-! SUPPORT. Facts about the operations as syntax, one lemma per constructor. -/

namespace Sys2Proof.Laws.EncodeMatchesRow

/-- The canonical word selects the operation's own row and has every unused bit 0 (R59). -/
def Statement (i : Instr) : Prop :=
  i.row.selects (encode i) ∧ encode i &&& i.row.used = encode i

theorem getLsbD_commandWord (op : BitVec 3) (arg : BitVec 14) (i : Nat) :
    (commandWord op arg).getLsbD i = if i < 14 then arg.getLsbD i else op.getLsbD (i - 14) :=
  BitVec.getLsbD_append

theorem encn (n : Nibble) : Statement (.encn n) := by
  unfold Statement TableRow.selects
  revert n
  decide

theorem synd (c : Codeword) : Statement (.synd c) := by
  unfold Statement TableRow.selects
  revert c
  decide

theorem decn (c : Codeword) : Statement (.decn c) := by
  unfold Statement TableRow.selects
  revert c
  decide

theorem encb (b : Byte) : Statement (.encb b) := by
  unfold Statement TableRow.selects
  revert b
  decide

theorem decb (e : EncodedByte) : Statement (.decb e) := by
  refine ⟨BitVec.eq_of_getLsbD_eq fun i hi => ?_, BitVec.and_allOnes⟩
  simp only [Instr.row, rowDecb, encode, BitVec.getLsbD_and, getLsbD_commandWord]
  interval_cases i <;> simp

theorem encm : Statement .encm := by unfold Statement TableRow.selects; decide

theorem decm : Statement .decm := by unfold Statement TableRow.selects; decide

theorem noiseS : Statement .noiseS := by unfold Statement TableRow.selects; decide

theorem noiseB : Statement .noiseB := by unfold Statement TableRow.selects; decide

end Sys2Proof.Laws.EncodeMatchesRow
end

