-- ==== Sys2Proof/Tests/Slice0.lean ====
section
/-! SUPPORT. Tests of single steps, of decoding and of the well-formedness check, with the expected
values of `95_test_vectors.md` or of the rule named, and a witness for the hypotheses of each
statement of Obligations.lean that has some. -/

namespace Sys2Proof.Machine.Tests

/-! ### Small states -/

/-- A length of at most 6, which fits whatever MAXLEN is (R9). -/
def smallLen (n : Nat) (h : n ≤ 6) : Fin (Config.maxLen + 1) :=
  ⟨n, Nat.lt_succ_of_le (Nat.le_trans h Config.six_le_maxLen)⟩

def hiState : State :=
  { State.reset with txt := [(0, 0x48#8), (1, 0x69#8)], len := smallLen 2 (by decide) }

def hiEncoded : State := { hiState with buf := [(0, 5451#14), (1, 6604#14)] }

/-- The row "three codewords with one flipped bit each" of section 2.6. -/
def hiCorrupted : State := { hiState with txt := [], buf := [(0, 5578#14), (1, 14796#14)] }

def oneState : State :=
  { State.reset with txt := [(0, 0x41#8)], buf := [(0, 5383#14)], len := smallLen 1 (by decide) }

def fiveState : State := { State.reset with len := smallLen 5 (by decide) }

def helloState : State :=
  { State.reset with
      txt := [(0, 0x48#8), (1, 0x45#8), (2, 0x4C#8), (3, 0x4C#8), (4, 0x4F#8), (5, 0x21#8)]
      buf := [(0, 5451#14), (1, 5421#14), (2, 5473#14), (3, 5473#14), (4, 5503#14), (5, 3207#14)]
      len := smallLen 6 (by decide) }

def faulted : State := { hiEncoded with fault := .invalidIndex }

/-- Draws given one after the other, for the operations that take their source as an argument. -/
def drawsOf (a b : Nat) : Nat → Nat := fun t => if t = 0 then a else b

/-! ### The well-formedness check (R58): an operand one too large for each field -/

theorem test_wf_encn : (SourceOp.encn 16).wellFormed = false ∧ (SourceOp.encn 16).assemble = none := by
  decide

theorem test_wf_synd : (SourceOp.synd 128).wellFormed = false ∧ (SourceOp.synd 128).assemble = none := by
  decide

theorem test_wf_decn : (SourceOp.decn 128).wellFormed = false ∧ (SourceOp.decn 128).assemble = none := by
  decide

theorem test_wf_encb : (SourceOp.encb 256).wellFormed = false ∧ (SourceOp.encb 256).assemble = none := by
  decide

theorem test_wf_decb :
    (SourceOp.decb 16384).wellFormed = false ∧ (SourceOp.decb 16384).assemble = none := by
  decide

theorem test_wf_largest :
    (SourceOp.encn 15).assemble = some (.encn 15#4) ∧ (SourceOp.synd 127).assemble = some (.synd 127#7) ∧
    (SourceOp.decn 127).assemble = some (.decn 127#7) ∧ (SourceOp.encb 255).assemble = some (.encb 255#8) ∧
    (SourceOp.decb 16383).assemble = some (.decb 16383#14) := by
  decide

/-- R58: the characters of a `.text` line, then LEN; a value that is too large is an error. -/
theorem test_asm_text :
    (AsmItem.text [0x48, 0x69]).moves = some [.putTxt 0 0x48#8, .putTxt 1 0x69#8, .putLen 2] ∧
    (AsmItem.txt 0 256).moves = none ∧ (AsmItem.buf 0 16384).moves = none ∧
    (AsmItem.text [0x100]).moves = none := by
  decide

/-- R58: CYCLE.S is ENCM, NOISE.S, DECM; a draw comment is not encoded. -/
theorem test_asm_cycle :
    assemble [⟨.reset, none⟩, ⟨.cycleS, some (.single 0)⟩] =
      some [.reset, .issue 0x14000#17, .issue 0x1C000#17, .issue 0x18000#17] := by
  decide

/-! ### Decoding: words written out bit by bit from the patterns of R59 -/

theorem test_decode_encn : decode 0b000_0000000000_1011#17 = .encn 11#4 := by decide
/-- The word 0x003FB of section 2.1: ignored bits set. -/
theorem test_decode_encn_ignored : decode 0b000_0000111111_1011#17 = .encn 11#4 := by decide
theorem test_decode_synd : decode 0b001_0000000_1010100#17 = .synd 84#7 := by decide
theorem test_decode_decn : decode 0b010_0000000_1010110#17 = .decn 86#7 := by decide
theorem test_decode_encb : decode 0b011_000000_01001000#17 = .encb 72#8 := by decide
theorem test_decode_decb : decode 0b100_01010101001010#17 = .decb 5450#14 := by decide
theorem test_decode_encm : decode 0b101_01001000110100#17 = .encm := by decide
theorem test_decode_decm : decode 0b110_00000000000000#17 = .decm := by decide
theorem test_decode_noiseS : decode 0b111_1111111111111_0#17 = .noiseS := by decide
theorem test_decode_noiseB : decode 0b111_0000000000000_1#17 = .noiseB := by decide

/-- The canonical words of section 2.9. -/
theorem test_encode :
    encode (.encn 11#4) = 0x0000B#17 ∧ encode (.synd 84#7) = 0x04054#17 ∧
    encode (.decn 84#7) = 0x08054#17 ∧ encode (.encb 0x48#8) = 0x0C048#17 ∧
    encode (.decb 5450#14) = 0x1154A#17 ∧ encode .encm = 0x14000#17 ∧ encode .decm = 0x18000#17 ∧
    encode .noiseS = 0x1C000#17 ∧ encode .noiseB = 0x1C001#17 := by
  decide

/-- The table's numbering: three bytes for a 17-bit word; a bit above bit 16 is no command word. -/
theorem test_table_word :
    decodeTableWord 24 0x0C048 = some (.encb 0x48#8) ∧ decodeTableWord 17 0x1FFFF = some .noiseB ∧
    decodeTableWord 24 0x20000 = none := by
  decide

/-! ### One operation each, on the vectors of section 2 -/

theorem test_encn :
    exec (.encn 11#4) hiState = .next { hiState with res := 85#14 } := rfl

theorem test_synd :
    exec (.synd 84#7) hiState = .next { hiState with res := 1#14 } := rfl

theorem test_decn_85 :
    exec (.decn 85#7) hiState = .next { hiState with res := 11#14, ncor := 0#2 } := rfl

/-- The misprinted literal of the source's example (90_conflicts C1). -/
theorem test_decn_86 :
    exec (.decn 86#7) hiState = .next { hiState with res := 10#14, ncor := 1#2 } := rfl

theorem test_encb :
    exec (.encb 0xA5#8) hiState = .next { hiState with res := 10541#14 } := rfl

/-- One bit flipped in each half. -/
theorem test_decb_both :
    exec (.decb 5955#14) hiState = .next { hiState with res := 72#14, ncor := 2#2 } := rfl

/-- Two bits flipped in the lower half. -/
theorem test_decb_double :
    exec (.decb 5448#14) hiState = .next { hiState with res := 73#14, ncor := 1#2 } := rfl

theorem test_encm : exec .encm hiState = .next hiEncoded := rfl

theorem test_decm :
    ∃ t, exec .decm hiCorrupted = .next t ∧ t.txt = [(0, 0x48#8), (1, 0x69#8)] ∧ t.cnt.val = 3 :=
  ⟨_, rfl, by decide, by decide⟩

/-- LEN = 1 forces the draw i = 0 (section 2.8); 7 becomes 8 in the lower half. -/
theorem test_noiseS_one :
    ∃ t, exec .noiseS oneState = .next t ∧ t.buf = [(0, 5384#14)] ∧ t.fault = .none := by
  have h : ∀ n, pick n 1 = 0 := fun n => Nat.mod_one n
  refine ⟨_, rfl, ?_, rfl⟩
  show (perturb oneState.advanceDraw (pick (Config.draw 0) 1)).buf = _
  rw [h]
  decide

theorem test_noiseS_empty :
    exec .noiseS State.reset = .next { State.reset with fault := .invalidIndex } := rfl

theorem test_noiseB_short :
    exec .noiseB fiveState = .next { fiveState with fault := .invalidIndex } := rfl

/-- Draws b = 3, i = 2 of program P3. -/
theorem test_noiseB_run :
    (noiseBurstChecked (drawsOf 3 2) helloState).buf =
      [(0, 5451#14), (1, 5421#14), (2, 5474#14), (3, 5474#14), (4, 5504#14), (5, 3207#14)] := by
  decide

/-- The wrap of the increment (section 2.7). -/
theorem test_increment_wraps : increment 16383#14 = 0#14 ∧ increment 127#14 = 128#14 := by decide

/-- Section 2.8, last rows: nothing happens while FAULT is set, and reset clears it. -/
theorem test_faulted :
    exec (.encn 11#4) faulted = .next faulted ∧ exec .decm faulted = .next faulted ∧
    exec .noiseS faulted = .next faulted := ⟨rfl, rfl, rfl⟩

/-! ### The host's moves -/

theorem test_step_fetch :
    step (hiState.withFetchWord 17 0x0C048) = .next { hiState with res := 5451#14 } := rfl

theorem test_step_waits : step hiState = .next hiState := rfl

theorem test_host_reset_clears :
    ∃ t, step { faulted with queue := [.reset] } = .next t ∧ t.fault = .none ∧ t.len.val = 0 ∧
      t.txt = [] ∧ t.buf = [] := ⟨_, rfl, rfl, rfl, rfl, rfl⟩

theorem test_host_put_len_refused (s : State) : hostPutLen (Config.maxLen + 1) s = s :=
  dif_neg (Nat.lt_irrefl _)

theorem test_host_put_txt_refused (s : State) (v : Byte) : hostPutTxt Config.maxLen v s = s :=
  if_neg (Nat.lt_irrefl _)

/-! ### Every statement that has hypotheses: a state and operands that meet them -/

/-- A word of each row, at the ends of the row's range, for the statements with a clause per `op`. -/
theorem test_meets_op_clauses :
    (0x00000#17).extractLsb' 14 3 = 0#3 ∧ (0x03FFF#17).extractLsb' 14 3 = 0#3 ∧
    (0x04000#17).extractLsb' 14 3 = 1#3 ∧ (0x07FFF#17).extractLsb' 14 3 = 1#3 ∧
    (0x08000#17).extractLsb' 14 3 = 2#3 ∧ (0x0BFFF#17).extractLsb' 14 3 = 2#3 ∧
    (0x0C000#17).extractLsb' 14 3 = 3#3 ∧ (0x0FFFF#17).extractLsb' 14 3 = 3#3 ∧
    (0x10000#17).extractLsb' 14 3 = 4#3 ∧ (0x13FFF#17).extractLsb' 14 3 = 4#3 ∧
    (0x14000#17).extractLsb' 14 3 = 5#3 ∧ (0x17FFF#17).extractLsb' 14 3 = 5#3 ∧
    (0x18000#17).extractLsb' 14 3 = 6#3 ∧ (0x1BFFF#17).extractLsb' 14 3 = 6#3 ∧
    ((0x1C000#17).extractLsb' 14 3 = 7#3 ∧ (0x1C000#17).getLsbD 0 = false) ∧
    ((0x1FFFE#17).extractLsb' 14 3 = 7#3 ∧ (0x1FFFE#17).getLsbD 0 = false) ∧
    ((0x1C001#17).extractLsb' 14 3 = 7#3 ∧ (0x1C001#17).getLsbD 0 = true) ∧
    ((0x1FFFF#17).extractLsb' 14 3 = 7#3 ∧ (0x1FFFF#17).getLsbD 0 = true) := by
  decide

theorem test_meets_EveryWordSelectsExactlyItsRow :
    rowEncn ∈ opcodeTable ∧ rowNoiseB ∈ opcodeTable := by decide

theorem test_meets_OpFieldSelectsOperation :
    (0x03FFF#17).extractLsb' 14 3 = 0#3 ∧ (0x1FFFF#17).extractLsb' 14 3 = 7#3 ∧
    (0x1FFFF#17).getLsbD 0 = true := by decide

theorem test_meets_IgnoredArgBitsHaveNoEffect :
    (decode 0x14000#17).row.selects 0x15234#17 ∧
    0x14000#17 &&& (decode 0x14000#17).row.used = 0x15234#17 &&& (decode 0x14000#17).row.used := by
  decide

theorem test_meets_StepPerformsTheIssuedCommand :
    { State.reset with queue := [.issue 0x0000B#17] }.queue = .issue 0x0000B#17 :: [] ∧
    State.reset.queue = [] := ⟨rfl, rfl⟩

/-- Each clause, the indices and lengths at the ends of their ranges. -/
theorem test_meets_HostWritesInRangeOnly :
    ({ State.reset with queue := [.putTxt (Config.maxLen - 1) 0xFF#8] }.queue =
        .putTxt (Config.maxLen - 1) 0xFF#8 :: [] ∧ Config.maxLen - 1 < Config.maxLen) ∧
    ({ State.reset with queue := [.putTxt Config.maxLen 0xFF#8] }.queue =
        .putTxt Config.maxLen 0xFF#8 :: [] ∧ Config.maxLen ≤ Config.maxLen) ∧
    ({ State.reset with queue := [.putBuf (Config.maxLen - 1) 1#14] }.queue =
        .putBuf (Config.maxLen - 1) 1#14 :: [] ∧ Config.maxLen - 1 < Config.maxLen) ∧
    ({ State.reset with queue := [.putBuf Config.maxLen 1#14] }.queue =
        .putBuf Config.maxLen 1#14 :: [] ∧ Config.maxLen ≤ Config.maxLen) ∧
    ({ State.reset with queue := [.putLen Config.maxLen] }.queue = .putLen Config.maxLen :: [] ∧
        Config.maxLen ≤ Config.maxLen) ∧
    ({ State.reset with queue := [.putLen (Config.maxLen + 1)] }.queue =
        .putLen (Config.maxLen + 1) :: [] ∧ Config.maxLen < Config.maxLen + 1) := by
  have h := Config.six_le_maxLen
  refine ⟨⟨rfl, ?_⟩, ⟨rfl, ?_⟩, ⟨rfl, ?_⟩, ⟨rfl, ?_⟩, ⟨rfl, ?_⟩, ⟨rfl, ?_⟩⟩ <;> omega

theorem test_meets_HostReadsAnswerTheLatestWrite :
    Config.maxLen - 1 < Config.maxLen ∧ Config.maxLen - 2 ≠ Config.maxLen - 1 ∧
    Config.maxLen ≤ Config.maxLen ∧
    { State.reset with queue := [.look (.txt 0)] }.queue = .look (.txt 0) :: [] ∧
    hiState.fault = .none ∧ faulted.fault = .invalidIndex ∧ Config.maxLen < Config.maxLen + 1 := by
  have h := Config.six_le_maxLen
  refine ⟨?_, ?_, ?_, rfl, rfl, rfl, ?_⟩ <;> omega

theorem test_meets_HostResetFromEveryState :
    { faulted with queue := [.reset] }.queue = .reset :: [] := rfl

/-- The hypothesis of every statement about an operation performed: FAULT = `None`. -/
theorem test_meets_fault_none :
    State.reset.fault = .none ∧ hiState.fault = .none ∧ helloState.fault = .none := by decide

theorem test_meets_EncnWritesTheCodeword :
    (0x03FFB#17).extractLsb' 14 3 = 0#3 ∧ hiState.fault = .none := by decide

theorem test_meets_EncnFollowsTheTable : hiState.fault = .none := by decide

theorem test_meets_EncnIsLinearWithDistanceThree :
    hiState.fault = .none ∧ 11#4 ≠ 0#4 ∧ 11#4 ≠ 4#4 := by decide

theorem test_meets_SyndWritesTheSyndrome :
    (0x04054#17).extractLsb' 14 3 = 1#3 ∧ hiState.fault = .none := by decide

/-- Clauses (c) and (d) at the first and the last bit. -/
theorem test_meets_SyndromeLocatesTheFlippedBit :
    hiState.fault = .none ∧ ValidCodeword 85#7 ∧ 0 < 7 ∧ 1#7 = 1#7 <<< 0 ∧ 6 < 7 ∧
    64#7 = 1#7 <<< 6 := by decide

theorem test_meets_DecnWritesNibbleAndCorrected :
    (0x08054#17).extractLsb' 14 3 = 2#3 ∧ hiState.fault = .none := by decide

theorem test_meets_CleanCodewordDecodesUncorrected : hiState.fault = .none := by decide

theorem test_meets_SingleBitErrorIsCorrected : 0 < 7 ∧ 6 < 7 ∧ hiState.fault = .none := by decide

theorem test_meets_DecnReturnsTheNearestCodeword : hiState.fault = .none := by decide

theorem test_meets_TwoBitErrorsAreMisdecoded :
    0 < 7 ∧ 6 < 7 ∧ 0 ≠ 6 ∧ hiState.fault = .none ∧ popcount (enc 0#4 ^^^ enc 1#4) = 3 := by decide

theorem test_meets_DecodedValueRightIffOneError : hiState.fault = .none := by decide

theorem test_meets_ScalarResultsIgnoreTheState :
    hiState.fault = .none ∧ helloState.fault = .none ∧ hiState ≠ helloState := by
  refine ⟨rfl, rfl, fun h => ?_⟩
  exact absurd (congrArg (fun s : State => s.len.val) h) (by decide)

theorem test_meets_EncbWritesTwoCodewords :
    (0x0C048#17).extractLsb' 14 3 = 3#3 ∧ hiState.fault = .none := by decide

theorem test_meets_EncbIsLinearAndInjective : hiState.fault = .none := by decide

theorem test_meets_DecbDecodesEachHalf :
    (0x1154A#17).extractLsb' 14 3 = 4#3 ∧ hiState.fault = .none := by decide

theorem test_meets_DecbCorrectsOneBitPerHalf :
    hiState.fault = .none ∧ AtMostOneBitPerCodeword (encByte 0x48#8) 5955#14 := by decide

theorem test_meets_EncmEncodesEveryElement :
    (0x15234#17).extractLsb' 14 3 = 5#3 ∧ hiState.fault = .none ∧ 0 < hiState.len.val ∧
    1 < hiState.len.val := by decide

theorem test_meets_DecmDecodesEveryElement :
    (0x18000#17).extractLsb' 14 3 = 6#3 ∧ hiCorrupted.fault = .none ∧ 0 < hiCorrupted.len.val := by
  decide

theorem test_meets_EmptyMessageWritesOnlyCnt :
    State.reset.fault = .none ∧ State.reset.len.val = 0 := by decide

/-- One flipped bit in three of the four codewords. -/
theorem test_meets_MessageRoundTripCorrectsOneBitPerCodeword :
    hiState.fault = .none ∧ hiState.TextWritten ∧ exec .encm hiState = .next hiEncoded ∧ hiCorrupted.fault = .none ∧
    hiCorrupted.len = hiEncoded.len ∧
    ∀ k, k < hiState.len.val →
      AtMostOneBitPerCodeword (hiEncoded.readBuf k) (hiCorrupted.readBuf k) :=
  ⟨rfl, by decide, rfl, rfl, rfl, by decide⟩

theorem hiState_inv : hiState.Inv := by
  have h := Config.six_le_maxLen
  refine ⟨⟨by decide, ?_⟩, ⟨by decide, ?_⟩, by decide⟩ <;> intro c hc <;>
    simp [hiState, State.reset] at hc
  rcases hc with rfl | rfl <;> simp <;> omega

theorem hiCorrupted_inv : hiCorrupted.Inv := by
  have h := Config.six_le_maxLen
  refine ⟨⟨by decide, ?_⟩, ⟨by decide, ?_⟩, by decide⟩ <;> intro c hc <;>
    simp [hiCorrupted, hiState, State.reset] at hc
  rcases hc with rfl | rfl <;> simp <;> omega

theorem test_meets_VisitingOrderCannotBeObserved :
    hiState.Inv ∧ hiState.fault = .none ∧ [1, 0].Perm (List.range hiState.len.val) ∧
    [3, 2].Perm ((List.range 2).map (2 + ·)) :=
  ⟨hiState_inv, rfl, by decide, by decide⟩

theorem test_meets_DecmCanBeIssuedAgain :
    hiCorrupted.Inv ∧ ∃ t, exec .decm hiCorrupted = .next t := ⟨hiCorrupted_inv, _, rfl⟩

theorem test_meets_ReencodingWipesTheNoise :
    (oneState.fault = .none ∧ preconditionHolds .noiseS oneState) ∧
    (helloState.fault = .none ∧ preconditionHolds .noiseB helloState) :=
  ⟨⟨rfl, Nat.le_refl 1⟩, ⟨rfl, Nat.le_refl 6⟩⟩

theorem test_meets_NoiseSIncrementsOneElement :
    ((0x1FFFE#17).extractLsb' 14 3 = 7#3 ∧ (0x1FFFE#17).getLsbD 0 = false) ∧
    (oneState.fault = .none ∧ 1 ≤ oneState.len.val) ∧
    (State.reset.fault = .none ∧ State.reset.len.val < 1) := by decide

theorem test_meets_NoiseBIncrementsOneRun :
    ((0x1C001#17).extractLsb' 14 3 = 7#3 ∧ (0x1C001#17).getLsbD 0 = true) ∧
    (helloState.fault = .none ∧ 6 ≤ helloState.len.val) ∧
    (fiveState.fault = .none ∧ fiveState.len.val < 6) := by decide

/-- The ends of the ranges: the last index, the longest run at its last start, the empty run at LEN. -/
theorem test_meets_EveryLegalDrawIsPossible :
    helloState.fault = .none ∧ 5 < helloState.len.val ∧ 6 ≤ helloState.len.val ∧
    (5 ≤ 5 ∧ 1 + 5 ≤ helloState.len.val) ∧ (0 ≤ 5 ∧ 6 + 0 ≤ helloState.len.val) := by decide

/-- NOISE.S that draws the last index, and NOISE.B that draws the longest run at its last start: the
elements on both sides of what is drawn. -/
theorem test_meets_NoiseStaysBelowLen :
    (hiState.len.val ≤ 2 ∧ 1 ≤ hiState.len.val ∧
      0 ≠ pick (hiState.nextDraw (drawsOf 1 0)) hiState.len) ∧
    (5 = pick (helloState.nextDraw (drawsOf 5 1)) (Config.burstMax + 1) ∧
      1 = pick (helloState.advanceDraw.nextDraw (drawsOf 5 1)) (helloState.len - 5 + 1) ∧
      6 ≤ helloState.len.val ∧ ¬(1 ≤ 0 ∧ 0 < 1 + 5) ∧ ¬(1 ≤ 6 ∧ 6 < 1 + 5)) := by decide

theorem test_meets_FreshByteAfterOneIncrement :
    hiState.fault = .none ∧ 14#4 ≠ 15#4 ∧ (15#4 = 15#4 ∧ 14#4 ≠ 15#4) := by decide

theorem test_meets_SingleNoiseCycleRestoresOnlySurvivors :
    oneState.fault = .none ∧ oneState.TextWritten ∧ 1 ≤ oneState.len.val := by decide

theorem test_meets_InvalidIndexEntrySetsOnlyFault :
    (State.reset.fault = .none ∧ State.reset.len.val < 1) ∧
    (fiveState.fault = .none ∧ fiveState.len.val < 6) := by decide

theorem test_meets_FaultedBlockPerformsNothing : faulted.fault = .invalidIndex := by decide

/-- Both ways FAULT can be set after a step, and the one way it is cleared. -/
theorem test_meets_FaultIsSetAndClearedOnlySo :
    (∃ t, step faulted = .next t ∧ t.fault = .invalidIndex) ∧
    (∃ t, step (fiveState.withFetchWord 17 0x1C001) = .next t ∧ t.fault = .invalidIndex) ∧
    (∃ t, step { faulted with queue := [.reset] } = .next t ∧ t.fault = .none) :=
  ⟨⟨_, rfl, rfl⟩, ⟨_, rfl, rfl⟩, ⟨_, rfl, rfl⟩⟩

theorem test_meets_CodingOperationsRaiseNothing :
    isCoding (.encn 0#4) ∧ isCoding .decm ∧ ¬isCoding .noiseS := ⟨trivial, trivial, id⟩

theorem test_meets_FrameOfScalarOperations :
    (∃ t, exec (.encn 11#4) hiState = .next t) ∧ (∃ t, exec (.decb 5955#14) hiState = .next t) ∧
    isCoding (.encn 11#4) ∧ Instr.encn 11#4 ≠ .encm ∧ Instr.encn 11#4 ≠ .decm :=
  ⟨⟨_, rfl⟩, ⟨_, rfl⟩, trivial, by decide, by decide⟩

theorem test_meets_FrameOfMessageOperations :
    (∃ t, exec .encm hiState = .next t) ∧ (∃ t, exec .decm hiCorrupted = .next t) ∧
    hiState.len.val ≤ 2 := ⟨⟨_, rfl⟩, ⟨_, rfl⟩, by decide⟩

theorem test_meets_FrameOfNoiseOperations :
    (∃ t, exec .noiseS oneState = .next t) ∧ (∃ t, exec .noiseS State.reset = .next t) ∧
    (∃ t, exec .noiseB helloState = .next t) ∧ (∃ t, exec .noiseB fiveState = .next t) :=
  ⟨⟨_, rfl⟩, ⟨_, rfl⟩, ⟨_, rfl⟩, ⟨_, rfl⟩⟩

/-- Two states that differ at index LEN only. -/
theorem test_meets_ElementsAboveLenAreNeitherReadNorWritten :
    oneState.AgreeBelowLen (oneState.writeBuf 1 3#14) ∧
    (oneState.writeBuf 1 3#14).readBuf 1 ≠ (oneState.writeBuf 1 4#14).readBuf 1 :=
  ⟨⟨by decide, by decide, rfl, rfl, rfl, rfl, rfl, rfl⟩, by decide⟩

theorem test_meets_RegistersChangeOnlyByTheirWriters :
    ∃ t, step (hiCorrupted.withFetchWord 17 0x18000) = .next t ∧ t.cnt ≠ hiCorrupted.cnt :=
  ⟨_, rfl, by decide⟩

theorem test_meets_StepKeepsTheInvariant :
    hiState.Inv ∧ ∃ t, step hiState = .next t := ⟨hiState_inv, _, rfl⟩

end Sys2Proof.Machine.Tests
end

section
/-! The widths of LEN and CNT (R9) hold every number the registers can hold (R19, R22). -/

namespace Sys2Proof

/-- R9: LEN_W bits tell apart all the numbers from 0 to MAXLEN. -/
theorem Config.maxLen_succ_le_two_pow_lenWidth : Config.maxLen + 1 ≤ 2 ^ Config.lenWidth :=
  Nat.le_pow_clog Nat.one_lt_two _

/-- R9: CNT_W bits tell apart all the numbers from 0 to 2 × MAXLEN. -/
theorem Config.two_mul_maxLen_succ_le_two_pow_cntWidth :
    2 * Config.maxLen + 1 ≤ 2 ^ Config.cntWidth :=
  Nat.le_pow_clog Nat.one_lt_two _

end Sys2Proof

namespace Sys2Proof.Machine

/-- R19: the number in LEN fits its register. -/
theorem State.len_lt_two_pow_lenWidth (s : State) : s.len.val < 2 ^ Config.lenWidth :=
  s.len.isLt.trans_le Config.maxLen_succ_le_two_pow_lenWidth

/-- R22: the number in CNT fits its register. -/
theorem State.cnt_lt_two_pow_cntWidth (s : State) : s.cnt.val < 2 ^ Config.cntWidth :=
  s.cnt.isLt.trans_le Config.two_mul_maxLen_succ_le_two_pow_cntWidth

/-- Settles O13: the bounds are those of the fields' types (log entry 3), and R9's widths cover
them. -/
theorem lenAndCntFitTheirWidths : Obligations.LenAndCntFitTheirWidths :=
  fun s => ⟨s.len_lt_two_pow_lenWidth, s.cnt_lt_two_pow_cntWidth⟩

end Sys2Proof.Machine
end

section
/-! What the effect of an operation changes (`10_state.md` R29) and what one step of the machine can
do, said once. -/

namespace Sys2Proof

/-- The value of the field `op` that selects an operation (R53). -/
def Instr.op : Instr → BitVec 3
  | .encn _ => 0#3
  | .synd _ => 1#3
  | .decn _ => 2#3
  | .encb _ => 3#3
  | .decb _ => 4#3
  | .encm => 5#3
  | .decm => 6#3
  | .noiseS | .noiseB => 7#3

theorem op_decodeNoise (m : Mode) : (decodeNoise m).op = 7#3 := by
  cases m <;> rfl

/-- The decoder selects the operation by the word's field `op` (R53). -/
theorem op_decode (w : CmdWord) : (decode w).op = opField w := by
  apply BitVec.eq_of_toFin_eq
  unfold decode
  split
  case h_8 h => exact (congrArg BitVec.toFin (op_decodeNoise _)).trans h.symm
  all_goals exact Eq.symm ‹_›

end Sys2Proof

namespace Sys2Proof.Machine

/-! ### The message operations -/

theorem effect_encm_only_buf (s : State) :
    effect .encm s = { s with buf := (effect .encm s).buf } :=
  encElements_only_buf s.len s

theorem effect_decm_only_txt_cnt (s : State) :
    effect .decm s = { s with txt := (effect .decm s).txt, cnt := (effect .decm s).cnt } :=
  congrArg (State.writeCnt · (messageCount s)) (decElements_only_txt s.len s)

/-- ENCM, read through the state: the elements of BUF below LEN are the encoded text (R80). -/
theorem readBuf_effect_encm (s : State) (k : Nat) :
    (effect .encm s).readBuf k = if k < s.len.val then encByte (s.readTxt k) else s.readBuf k := by
  have hm : Memory.read (effect .encm s).buf k =
      if k < s.len.val then some (encByte (s.readTxt k)) else Memory.read s.buf k :=
    read_encElements s.len s k
  rw [effect_encm_only_buf, State.readBuf, hm]
  split <;> rfl

/-- DECM, read through the state: the elements of TXT below LEN are the decoded message (R81). -/
theorem readTxt_effect_decm (s : State) (k : Nat) :
    (effect .decm s).readTxt k =
      if k < s.len.val then (decByte (s.readBuf k)).1 else s.readTxt k := by
  have hm : Memory.read (effect .decm s).txt k =
      if k < s.len.val then some (decByte (s.readBuf k)).1 else Memory.read s.txt k :=
    read_decElements s.len s k
  rw [effect_decm_only_txt_cnt, State.readTxt, hm]
  split <;> rfl

/-! ### The NOISE operations -/

/-- NOISE.S raises on LEN = 0 and otherwise increments the element it draws (R91, R96). -/
theorem noiseSingleChecked_cases (stream : Nat → Nat) (s : State) :
    (s.len.val < 1 ∧ noiseSingleChecked stream s = s.raiseInvalidIndex) ∨
    (1 ≤ s.len.val ∧ noiseSingleChecked stream s = noiseSingle stream s) := by
  by_cases h : s.len.val < 1
  · exact .inl ⟨h, if_pos h⟩
  · exact .inr ⟨Nat.not_lt.mp h, if_neg h⟩

/-- NOISE.B raises on LEN < 6 and otherwise increments the run it draws (R93, R96). -/
theorem noiseBurstChecked_cases (stream : Nat → Nat) (s : State) :
    (s.len.val < 6 ∧ noiseBurstChecked stream s = s.raiseInvalidIndex) ∨
    (6 ≤ s.len.val ∧ noiseBurstChecked stream s = noiseBurst stream s) := by
  by_cases h : s.len.val < 6
  · exact .inl ⟨h, if_pos h⟩
  · exact .inr ⟨Nat.not_lt.mp h, if_neg h⟩

theorem noiseSingle_only_buf_drawn (stream : Nat → Nat) (s : State) :
    noiseSingle stream s = { s with buf := (noiseSingle stream s).buf, drawn := s.drawn + 1 } :=
  rfl

theorem noiseBurst_only_buf_drawn (stream : Nat → Nat) (s : State) :
    noiseBurst stream s = { s with buf := (noiseBurst stream s).buf, drawn := s.drawn + 2 } :=
  perturbRun_only_buf _ _ s.advanceDraw.advanceDraw

/-- The element NOISE.S draws is incremented, every other one reads as before (R91). -/
theorem readBuf_noiseSingle (stream : Nat → Nat) (s : State) (k : Nat) :
    (noiseSingle stream s).readBuf k =
      if k = pick (s.nextDraw stream) s.len then increment (s.readBuf k) else s.readBuf k := by
  rw [noiseSingle, perturb, State.readBuf_writeBuf]
  split
  case isTrue h => rw [h, State.readBuf_advanceDraw]
  case isFalse => rfl

/-- A run of increments, read through the state (R93). -/
theorem readBuf_perturbRun (b i : Nat) (s : State) (k : Nat) :
    (perturbRun b i s).readBuf k =
      if i ≤ k ∧ k < i + b then increment (s.readBuf k) else s.readBuf k := by
  rw [State.readBuf, read_perturbRun, perturbRun_epoch]
  split <;> rfl

/-- The run NOISE.B draws ends at LEN or before (R89, R93). -/
theorem drawn_run_le_len (raw raw' : Nat) {len : Nat} (h : 6 ≤ len) :
    pick raw' (len - pick raw 6 + 1) + pick raw 6 ≤ len := by
  have hb : pick raw 6 < 6 := pick_lt raw (by decide)
  have hi : pick raw' (len - pick raw 6 + 1) < len - pick raw 6 + 1 :=
    pick_lt raw' (Nat.succ_pos _)
  omega

theorem effect_noiseS_only_buf_fault_drawn (s : State) :
    effect .noiseS s =
      { s with
          buf := (effect .noiseS s).buf
          fault := (effect .noiseS s).fault
          drawn := (effect .noiseS s).drawn } := by
  rw [effect]
  obtain ⟨-, h⟩ | ⟨-, h⟩ := noiseSingleChecked_cases Config.draw s
  · rw [h]; rfl
  · rw [h, noiseSingle_only_buf_drawn]

theorem effect_noiseB_only_buf_fault_drawn (s : State) :
    effect .noiseB s =
      { s with
          buf := (effect .noiseB s).buf
          fault := (effect .noiseB s).fault
          drawn := (effect .noiseB s).drawn } := by
  rw [effect]
  obtain ⟨-, h⟩ | ⟨-, h⟩ := noiseBurstChecked_cases Config.draw s
  · rw [h]; rfl
  · rw [h, noiseBurst_only_buf_drawn]

/-! ### Which registers an effect writes (R19 to R23) -/

@[simp] theorem effect_len (i : Instr) (s : State) : (effect i s).len = s.len := by
  cases i with
  | encn | synd | decn | encb | decb => rfl
  | encm => rw [effect_encm_only_buf]
  | decm => rw [effect_decm_only_txt_cnt]
  | noiseS => rw [effect_noiseS_only_buf_fault_drawn]
  | noiseB => rw [effect_noiseB_only_buf_fault_drawn]

/-- R20: only the scalar operations write RES. -/
theorem effect_res (i : Instr) (s : State) : (effect i s).res = s.res ∨ i.op.toNat ≤ 4 := by
  cases i with
  | encn | synd | decn | encb | decb => exact .inr (by simp [Instr.op])
  | encm => rw [effect_encm_only_buf]; exact .inl rfl
  | decm => rw [effect_decm_only_txt_cnt]; exact .inl rfl
  | noiseS => rw [effect_noiseS_only_buf_fault_drawn]; exact .inl rfl
  | noiseB => rw [effect_noiseB_only_buf_fault_drawn]; exact .inl rfl

/-- R21: only DECN and DECB write NCOR. -/
theorem effect_ncor (i : Instr) (s : State) :
    (effect i s).ncor = s.ncor ∨ i.op = 2#3 ∨ i.op = 4#3 := by
  cases i with
  | encn | synd | encb => exact .inl rfl
  | decn => exact .inr (.inl rfl)
  | decb => exact .inr (.inr rfl)
  | encm => rw [effect_encm_only_buf]; exact .inl rfl
  | decm => rw [effect_decm_only_txt_cnt]; exact .inl rfl
  | noiseS => rw [effect_noiseS_only_buf_fault_drawn]; exact .inl rfl
  | noiseB => rw [effect_noiseB_only_buf_fault_drawn]; exact .inl rfl

/-- R22: only DECM writes CNT. -/
theorem effect_cnt (i : Instr) (s : State) : (effect i s).cnt = s.cnt ∨ i.op = 6#3 := by
  cases i with
  | encn | synd | decn | encb | decb => exact .inl rfl
  | encm => rw [effect_encm_only_buf]; exact .inl rfl
  | decm => exact .inr rfl
  | noiseS => rw [effect_noiseS_only_buf_fault_drawn]; exact .inl rfl
  | noiseB => rw [effect_noiseB_only_buf_fault_drawn]; exact .inl rfl

/-- R96, R101: an effect sets FAULT exactly when the operation's precondition on LEN fails. -/
theorem effect_fault_iff (i : Instr) {s : State} (h : s.fault = .none) :
    (effect i s).fault = .invalidIndex ↔ ¬preconditionHolds i s := by
  cases i with
  | encn | synd | decn | encb | decb => simp [effect, preconditionHolds, h]
  | encm => rw [effect_encm_only_buf]; simp [preconditionHolds, h]
  | decm => rw [effect_decm_only_txt_cnt]; simp [preconditionHolds, h]
  | noiseS =>
    rw [effect, preconditionHolds]
    obtain ⟨hl, he⟩ | ⟨hl, he⟩ := noiseSingleChecked_cases Config.draw s
    · simp [he, hl]
    · rw [he, noiseSingle_only_buf_drawn]
      simp [h, hl]
  | noiseB =>
    rw [effect, preconditionHolds]
    obtain ⟨hl, he⟩ | ⟨hl, he⟩ := noiseBurstChecked_cases Config.draw s
    · simp [he, hl]
    · rw [he, noiseBurst_only_buf_drawn]
      simp [h, hl]

/-! ### One step -/

/-- What one step can do: wait, perform the operation the host issues next, pass over a move that
has no effect, or carry out a write or the reset of the host (R37, R38, R109, R115). -/
inductive StepsTo (s : State) : State → Prop where
  | wait (hq : s.queue = []) : StepsTo s s
  | perform {w : CmdWord} {rest : List HostAction} (hq : s.queue = .issue w :: rest)
      (hf : s.fault = .none) : StepsTo s (effect (decode w) { s with queue := rest })
  | pass {a : HostAction} {rest : List HostAction} (hq : s.queue = a :: rest) (ha : a ≠ .reset)
      (hf : ∀ w, a = .issue w → s.fault = .invalidIndex) : StepsTo s { s with queue := rest }
  | putTxt {k : Nat} {v : Byte} {rest : List HostAction} (hq : s.queue = .putTxt k v :: rest)
      (hk : k < Config.maxLen) : StepsTo s (State.writeTxt { s with queue := rest } k v)
  | putBuf {k : Nat} {v : EncodedByte} {rest : List HostAction} (hq : s.queue = .putBuf k v :: rest)
      (hk : k < Config.maxLen) : StepsTo s (State.writeBuf { s with queue := rest } k v)
  | putLen {n : Fin (Config.maxLen + 1)} {rest : List HostAction}
      (hq : s.queue = .putLen n :: rest) : StepsTo s (State.writeLen { s with queue := rest } n)
  | reset {rest : List HostAction} (hq : s.queue = .reset :: rest) :
      StepsTo s (hostReset { s with queue := rest })

theorem stepsTo_of_step {s t : State} (h : step s = .next t) : StepsTo s t := by
  cases hq : s.queue with
  | nil =>
    obtain rfl := Host.Outcome.next.inj (step_of_queue_nil hq ▸ h)
    exact .wait hq
  | cons a rest =>
    rw [step_of_queue_cons hq] at h
    cases a with
    | issue w =>
      obtain ⟨hf, rfl⟩ | ⟨hf, rfl⟩ := exec_cases h
      · exact .perform hq hf
      · exact .pass hq nofun fun _ _ => hf
    | putTxt k v =>
      obtain rfl := Host.Outcome.next.inj h
      rw [hostPutTxt]
      split
      · exact .putTxt hq ‹_›
      · exact .pass hq nofun nofun
    | putBuf k v =>
      obtain rfl := Host.Outcome.next.inj h
      rw [hostPutBuf]
      split
      · exact .putBuf hq ‹_›
      · exact .pass hq nofun nofun
    | putLen n =>
      obtain rfl := Host.Outcome.next.inj h
      rw [hostPutLen]
      split
      · exact .putLen hq
      · exact .pass hq nofun nofun
    | look r =>
      obtain rfl := Host.Outcome.next.inj h
      exact .pass hq nofun nofun
    | reset =>
      obtain rfl := Host.Outcome.next.inj h
      exact .reset hq

end Sys2Proof.Machine
end

section
/-! FAULT over the whole machine (`10_state.md` R23, `60_exceptions.md` R104, R109). -/

namespace Sys2Proof.Machine

/-- A precondition is on LEN alone (R94, R95): the host's later moves do not matter. -/
theorem preconditionHolds_queue (i : Instr) (s : State) (q : List HostAction) :
    preconditionHolds i { s with queue := q } = preconditionHolds i s := by
  cases i <;> rfl

/-- Settles O46, by the cases of a step: only an operation performed can set FAULT, and it does so
exactly where its precondition fails; only the reset clears it. -/
theorem faultIsSetAndClearedOnlySo : Obligations.FaultIsSetAndClearedOnlySo := by
  intro s t h
  cases stepsTo_of_step h with
  | wait hq => simp [hq]
  | @perform w rest hq hf =>
    rw [effect_fault_iff (decode w) (s := { s with queue := rest }) hf, preconditionHolds_queue]
    simp [hq, hf]
  | @pass a rest hq ha hf =>
    have hissue : ∀ w, s.fault = .none → a ≠ .issue w := fun w h0 e =>
      FaultFlag.noConfusion (h0.symm.trans (hf w e))
    simp +contextual [hq, ha, hissue]
  | putTxt hq | putBuf hq | putLen hq => simp [hq]
  | reset hq => simp [hq, hostReset, State.reset]

end Sys2Proof.Machine
end

section
/-! The invariant of the machine (`10_state.md` R17, R18, R21). -/

namespace Sys2Proof.Machine

theorem State.Inv.writeTxt {s : State} (h : s.Inv) {k : Nat} (hk : k < Config.maxLen) (v : Byte) :
    (s.writeTxt k v).Inv := by
  obtain ⟨⟨hwf, hbelow⟩, hbuf, hncor⟩ := h
  exact ⟨⟨Memory.wf_write hwf k v, Memory.below_write hbelow hk v⟩, hbuf, hncor⟩

theorem State.Inv.writeBuf {s : State} (h : s.Inv) {k : Nat} (hk : k < Config.maxLen)
    (v : EncodedByte) : (s.writeBuf k v).Inv := by
  obtain ⟨htxt, ⟨hwf, hbelow⟩, hncor⟩ := h
  exact ⟨htxt, ⟨Memory.wf_write hwf k v, Memory.below_write hbelow hk v⟩, hncor⟩

/-- R21: the count of one or two codewords is never written as 3. -/
theorem ncorOf_ne_three {n : Nat} (h : n ≤ 2) : ncorOf n ≠ 3#2 := by
  interval_cases n <;> decide

theorem State.Inv.writeNcor {s : State} (h : s.Inv) {n : Nat} (hn : n ≤ 2) :
    (s.writeNcor (ncorOf n)).Inv := by
  obtain ⟨htxt, hbuf, -⟩ := h
  exact ⟨htxt, hbuf, ncorOf_ne_three hn⟩

theorem State.Inv.perturbRun {s : State} (h : s.Inv) {b i : Nat} (hrun : i + b ≤ Config.maxLen) :
    (perturbRun b i s).Inv :=
  forEach_invariant (P := State.Inv) (fun _ _ hj ht => ht.writeBuf (by omega) _) h

theorem State.len_le_maxLen (s : State) : s.len.val ≤ Config.maxLen := Nat.le_of_lt_succ s.len.isLt

theorem noiseSingleChecked_inv (stream : Nat → Nat) {s : State} (h : s.Inv) :
    (noiseSingleChecked stream s).Inv := by
  obtain ⟨-, he⟩ | ⟨hl, he⟩ := noiseSingleChecked_cases stream s
  · exact he ▸ h
  · rw [he]
    exact State.Inv.writeBuf (s := s.advanceDraw) h ((pick_lt _ hl).trans_le s.len_le_maxLen) _

theorem noiseBurstChecked_inv (stream : Nat → Nat) {s : State} (h : s.Inv) :
    (noiseBurstChecked stream s).Inv := by
  obtain ⟨-, he⟩ | ⟨hl, he⟩ := noiseBurstChecked_cases stream s
  · exact he ▸ h
  · rw [he]
    exact State.Inv.perturbRun (s := s.advanceDraw.advanceDraw) h
      ((drawn_run_le_len _ _ hl).trans s.len_le_maxLen)

/-- Every operation keeps the invariant: it writes at indices below LEN only, and to NCOR a count of
at most two codewords (R35, R21). -/
theorem effect_inv (i : Instr) {s : State} (h : s.Inv) : (effect i s).Inv := by
  cases i with
  | encn | synd | encb => exact h
  | decn c =>
    exact State.Inv.writeNcor (s := s.writeRes _) h ((Bool.toNat_le _).trans one_le_two)
  | decb e => exact State.Inv.writeNcor (s := s.writeRes _) h (decByte_count_le e)
  | encm =>
    exact forEach_invariant (P := State.Inv)
      (fun t k hk ht => ht.writeBuf (hk.trans_le s.len_le_maxLen) _) h
  | decm =>
    exact forEach_invariant (P := State.Inv)
      (fun t k hk ht => ht.writeTxt (hk.trans_le s.len_le_maxLen) _) h
  | noiseS => exact noiseSingleChecked_inv Config.draw h
  | noiseB => exact noiseBurstChecked_inv Config.draw h

/-- Settles O54: nothing is listed in either memory, and NCOR is 0. -/
theorem resetMeetsTheInvariant : Obligations.ResetMeetsTheInvariant :=
  ⟨⟨.nil, nofun⟩, ⟨.nil, nofun⟩, by decide⟩

/-- Settles O53, by the cases of a step: an element is written below MAXLEN only, whether by an
operation or by the host. -/
theorem stepKeepsTheInvariant : Obligations.StepKeepsTheInvariant := by
  intro s t hs h
  cases stepsTo_of_step h with
  | wait | pass | putLen => exact hs
  | perform => exact effect_inv _ hs
  | putTxt _ hk => exact State.Inv.writeTxt hs hk _
  | putBuf _ hk => exact State.Inv.writeBuf hs hk _
  | reset => exact resetMeetsTheInvariant

end Sys2Proof.Machine
end

section
/-! What each operation depends on and leaves unchanged (`10_state.md` R16, R29). -/

namespace Sys2Proof.Machine

/-- Settles O25: each effect writes a function of the operand. -/
theorem scalarResultsIgnoreTheState : Obligations.ScalarResultsIgnoreTheState := by
  intro i s t hs ht
  rw [exec_eq_perform, exec_eq_perform, perform_none hs, perform_none ht]
  cases i with
  | encn | synd | encb => exact ⟨_, rfl, rfl⟩
  | decn | decb => exact ⟨_, _, rfl, rfl⟩
  | encm | decm | noiseS | noiseB => trivial

/-- Settles O48: the effects of the scalar operations write RES, or RES and NCOR. -/
theorem frameOfScalarOperations : Obligations.FrameOfScalarOperations := by
  intro i s t h
  obtain ⟨-, rfl⟩ | ⟨-, rfl⟩ := exec_cases h
  · cases i with
    | encn | synd | encb => exact ⟨⟨rfl, rfl⟩, fun _ _ _ _ => ⟨rfl, rfl⟩⟩
    | decn | decb => exact ⟨rfl, fun _ _ _ _ => ⟨rfl, rfl⟩⟩
    | encm => exact ⟨trivial, fun _ hne => absurd rfl hne⟩
    | decm => exact ⟨trivial, fun _ _ hne => absurd rfl hne⟩
    | noiseS | noiseB => exact ⟨trivial, False.elim⟩
  · cases i with
    | encn | synd | encb => exact ⟨⟨rfl, rfl⟩, fun _ _ _ _ => ⟨rfl, rfl⟩⟩
    | decn | decb => exact ⟨rfl, fun _ _ _ _ => ⟨rfl, rfl⟩⟩
    | encm | decm | noiseS | noiseB => exact ⟨trivial, fun _ _ _ _ => ⟨rfl, rfl⟩⟩

/-- Settles O49: with FAULT = `None` each message operation is its loop, which stops at LEN. -/
theorem frameOfMessageOperations : Obligations.FrameOfMessageOperations := by
  refine fun s t => ⟨fun h => ?_, fun h => ?_⟩
  · obtain ⟨-, rfl⟩ | ⟨-, rfl⟩ := exec_cases h
    · refine ⟨effect_encm_only_buf s, fun k => ?_, fun k hk => ?_⟩
      · rw [effect_encm_only_buf]; rfl
      · rw [readBuf_effect_encm, if_neg (Nat.not_lt.mpr hk)]
    · exact ⟨rfl, fun _ => rfl, fun _ _ => rfl⟩
  · obtain ⟨-, rfl⟩ | ⟨-, rfl⟩ := exec_cases h
    · refine ⟨effect_decm_only_txt_cnt s, fun k => ?_, fun k hk => ?_⟩
      · rw [effect_decm_only_txt_cnt]; rfl
      · rw [readTxt_effect_decm, if_neg (Nat.not_lt.mpr hk)]
    · exact ⟨rfl, fun _ => rfl, fun _ _ => rfl⟩

/-- NOISE.S does nothing while FAULT is set, raises on LEN = 0, or increments the element drawn. -/
theorem exec_noiseS_cases {s t : State} (h : exec .noiseS s = .next t) :
    t = s ∨ t = s.raiseInvalidIndex ∨ t = noiseSingle Config.draw s := by
  obtain ⟨-, ht⟩ | ⟨-, ht⟩ := exec_cases h
  · exact .inr ((noiseSingleChecked_cases Config.draw s).imp
      (fun ⟨_, he⟩ => ht.trans he) (fun ⟨_, he⟩ => ht.trans he))
  · exact .inl ht

/-- NOISE.B does nothing while FAULT is set, raises on LEN < 6, or increments the run drawn. -/
theorem exec_noiseB_cases {s t : State} (h : exec .noiseB s = .next t) :
    t = s ∨ t = s.raiseInvalidIndex ∨ t = noiseBurst Config.draw s := by
  obtain ⟨-, ht⟩ | ⟨-, ht⟩ := exec_cases h
  · exact .inr ((noiseBurstChecked_cases Config.draw s).imp
      (fun ⟨_, he⟩ => ht.trans he) (fun ⟨_, he⟩ => ht.trans he))
  · exact .inl ht

/-- Settles O50, by the three ways a NOISE operation can end. -/
theorem frameOfNoiseOperations : Obligations.FrameOfNoiseOperations := by
  refine fun s t => ⟨fun h => ?_, fun h => ?_⟩
  · obtain rfl | rfl | rfl := exec_noiseS_cases h
    · exact ⟨rfl, .inl rfl, fun _ => rfl, fun _ _ => rfl⟩
    · exact ⟨rfl, .inl rfl, fun _ => rfl, fun _ _ => rfl⟩
    · refine ⟨noiseSingle_only_buf_drawn _ s, .inr rfl, fun _ => rfl, fun k hk => ?_⟩
      rw [readBuf_noiseSingle, if_neg hk]
  · obtain rfl | rfl | rfl := exec_noiseB_cases h
    · exact ⟨rfl, .inl rfl, fun _ => rfl, fun _ _ _ _ _ _ => rfl⟩
    · exact ⟨rfl, .inl rfl, fun _ => rfl, fun _ _ _ _ _ _ => rfl⟩
    · refine ⟨?_, .inr ?_, fun k => ?_, fun b i k hb hi hk => ?_⟩
      · rw [noiseBurst_only_buf_drawn]
      · rw [noiseBurst_only_buf_drawn]
      · rw [noiseBurst_only_buf_drawn]; rfl
      · subst hb hi
        exact (readBuf_perturbRun _ _ _ k).trans (if_neg hk)

end Sys2Proof.Machine
end

section
/-! The registers over the whole machine (`10_state.md` R19 to R22) and the host's reset (R28). -/

namespace Sys2Proof.Machine

/-- Settles O52, by the cases of a step: an operation performed changes the registers its `op` names
it a writer of, and of the host's moves only its write of LEN and its reset change a register. -/
theorem registersChangeOnlyByTheirWriters : Obligations.RegistersChangeOnlyByTheirWriters := by
  intro s t h
  cases stepsTo_of_step h with
  | wait | pass | putTxt | putBuf => exact ⟨.inl rfl, .inl rfl, .inl rfl, .inl rfl⟩
  | @perform w rest hq hf =>
    have hop : (decode w).op = w.extractLsb' 14 3 := op_decode w
    refine ⟨.inl (effect_len _ _), ?_, ?_, ?_⟩
    · exact (effect_res (decode w) _).imp_right fun ho => .inr ⟨w, rest, hq, hop ▸ ho⟩
    · exact (effect_ncor (decode w) _).imp_right fun ho => .inr ⟨w, rest, hq, hop ▸ ho⟩
    · exact (effect_cnt (decode w) _).imp_right fun ho => .inr ⟨w, rest, hq, hop ▸ ho⟩
  | @putLen n rest hq => exact ⟨.inr (.inl ⟨n, rest, hq⟩), .inl rfl, .inl rfl, .inl rfl⟩
  | @reset rest hq =>
    exact ⟨.inr (.inr ⟨rest, hq⟩), .inr (.inl ⟨rest, hq⟩), .inr (.inl ⟨rest, hq⟩),
      .inr (.inl ⟨rest, hq⟩)⟩

/-- Settles O11: the fields of `State.reset` are these values. -/
theorem resetRegisterValues : Obligations.ResetRegisterValues :=
  ⟨rfl, rfl, rfl, rfl, rfl, fun _ => ⟨rfl, rfl⟩⟩

/-- Settles O10: the step is the host's reset, which takes the block's registers and memories from
`State.reset`, whatever the state was. -/
theorem hostResetFromEveryState : Obligations.HostResetFromEveryState := by
  intro s rest hq
  obtain ⟨hlen, hres, hncor, hcnt, hfault, hmem⟩ := resetRegisterValues
  exact ⟨hostReset { s with queue := rest }, step_of_queue_cons hq, hlen, hres, hncor, hcnt, hfault,
    rfl, hmem⟩

end Sys2Proof.Machine
end

section
/-! No operation reads or writes an element at index LEN or above (`20_memory.md` R35, `10_state.md`
R29). -/

namespace Sys2Proof.Machine

/-! ### Agreement below LEN -/

theorem State.AgreeBelowLen.writeTxt {s t : State} (h : s.AgreeBelowLen t) {k : Nat} {u v : Byte}
    (huv : k < s.len.val → u = v) : (s.writeTxt k u).AgreeBelowLen (t.writeTxt k v) := by
  obtain ⟨htxt, hrest⟩ := h
  refine ⟨fun j hj => ?_, hrest⟩
  rw [State.readTxt_writeTxt, State.readTxt_writeTxt]
  split
  case isTrue hjk => exact huv (hjk ▸ hj)
  case isFalse => exact htxt j hj

theorem State.AgreeBelowLen.writeBuf {s t : State} (h : s.AgreeBelowLen t) {k : Nat}
    {u v : EncodedByte} (huv : k < s.len.val → u = v) :
    (s.writeBuf k u).AgreeBelowLen (t.writeBuf k v) := by
  obtain ⟨htxt, hbuf, hregs⟩ := h
  refine ⟨htxt, fun j hj => ?_, hregs⟩
  rw [State.readBuf_writeBuf, State.readBuf_writeBuf]
  split
  case isTrue hjk => exact huv (hjk ▸ hj)
  case isFalse => exact hbuf j hj

theorem State.AgreeBelowLen.writeRes {s t : State} (h : s.AgreeBelowLen t) {w : Nat}
    (v : BitVec w) : (s.writeRes v).AgreeBelowLen (t.writeRes v) := by
  obtain ⟨htxt, hbuf, hlen, -, hregs⟩ := h
  exact ⟨htxt, hbuf, hlen, rfl, hregs⟩

theorem State.AgreeBelowLen.writeNcor {s t : State} (h : s.AgreeBelowLen t) (v : BitVec 2) :
    (s.writeNcor v).AgreeBelowLen (t.writeNcor v) := by
  obtain ⟨htxt, hbuf, hlen, hres, -, hregs⟩ := h
  exact ⟨htxt, hbuf, hlen, hres, rfl, hregs⟩

theorem State.AgreeBelowLen.writeCnt {s t : State} (h : s.AgreeBelowLen t)
    (v : Fin (2 * Config.maxLen + 1)) : (s.writeCnt v).AgreeBelowLen (t.writeCnt v) := by
  obtain ⟨htxt, hbuf, hlen, hres, hncor, -, hregs⟩ := h
  exact ⟨htxt, hbuf, hlen, hres, hncor, rfl, hregs⟩

theorem State.AgreeBelowLen.raiseInvalidIndex {s t : State} (h : s.AgreeBelowLen t) :
    s.raiseInvalidIndex.AgreeBelowLen t.raiseInvalidIndex := by
  obtain ⟨htxt, hbuf, hlen, hres, hncor, hcnt, -, hdrawn⟩ := h
  exact ⟨htxt, hbuf, hlen, hres, hncor, hcnt, rfl, hdrawn⟩

theorem State.AgreeBelowLen.advanceDraw {s t : State} (h : s.AgreeBelowLen t) :
    s.advanceDraw.AgreeBelowLen t.advanceDraw := by
  obtain ⟨htxt, hbuf, hlen, hres, hncor, hcnt, hfault, hdrawn⟩ := h
  exact ⟨htxt, hbuf, hlen, hres, hncor, hcnt, hfault, congrArg (· + 1) hdrawn⟩

theorem State.AgreeBelowLen.len_eq {s t : State} (h : s.AgreeBelowLen t) : s.len = t.len := by
  obtain ⟨-, -, hlen, -⟩ := h
  exact hlen

theorem State.AgreeBelowLen.fault_eq {s t : State} (h : s.AgreeBelowLen t) : s.fault = t.fault := by
  obtain ⟨-, -, -, -, -, -, hfault, -⟩ := h
  exact hfault

theorem State.AgreeBelowLen.nextDraw_eq {s t : State} (h : s.AgreeBelowLen t)
    (stream : Nat → Nat) : s.nextDraw stream = t.nextDraw stream := by
  obtain ⟨-, -, -, -, -, -, -, hdrawn⟩ := h
  exact congrArg stream hdrawn

theorem State.AgreeBelowLen.readTxt_eq {s t : State} (h : s.AgreeBelowLen t) {k : Nat}
    (hk : k < s.len.val) : s.readTxt k = t.readTxt k := by
  obtain ⟨htxt, -⟩ := h
  exact htxt k hk

theorem State.AgreeBelowLen.readBuf_eq {s t : State} (h : s.AgreeBelowLen t) {k : Nat}
    (hk : k < s.len.val) : s.readBuf k = t.readBuf k := by
  obtain ⟨-, hbuf, -⟩ := h
  exact hbuf k hk

/-! ### The loop bodies, the loops and the effects keep the agreement -/

/-- What the body keeps between two states, the loop keeps between them. -/
theorem forEach_relates {R : State → State → Prop} {body : State → Nat → State}
    (hbody : ∀ s t k, R s t → R (body s k) (body t k)) (n : Nat) {s t : State} (h : R s t) :
    R (forEach body n s) (forEach body n t) := by
  induction n with
  | zero => exact h
  | succ n ih => exact hbody _ _ n ih

theorem State.AgreeBelowLen.encElement {s t : State} (h : s.AgreeBelowLen t) (k : Nat) :
    (encElement s k).AgreeBelowLen (encElement t k) :=
  h.writeBuf fun hk => congrArg encByte (h.readTxt_eq hk)

theorem State.AgreeBelowLen.decElement {s t : State} (h : s.AgreeBelowLen t) (k : Nat) :
    (decElement s k).AgreeBelowLen (decElement t k) :=
  h.writeTxt fun hk => congrArg (fun e => (decByte e).1) (h.readBuf_eq hk)

theorem State.AgreeBelowLen.perturb {s t : State} (h : s.AgreeBelowLen t) (k : Nat) :
    (perturb s k).AgreeBelowLen (perturb t k) :=
  h.writeBuf fun hk => congrArg increment (h.readBuf_eq hk)

theorem State.AgreeBelowLen.perturbRun {s t : State} (h : s.AgreeBelowLen t) (b i : Nat) :
    (perturbRun b i s).AgreeBelowLen (perturbRun b i t) :=
  forEach_relates (fun _ _ j hst => hst.perturb (i + j)) b h

/-- DECM counts the corrections of the elements below LEN only (R81). -/
theorem State.AgreeBelowLen.messageCount_eq {s t : State} (h : s.AgreeBelowLen t) :
    messageCount s = messageCount t := by
  apply Fin.ext
  show correctedTotal s s.len = correctedTotal t t.len
  rw [correctedTotal_eq_sum, correctedTotal_eq_sum, ← h.len_eq]
  refine congrArg List.sum (List.map_congr_left fun k hk => ?_)
  rw [h.readBuf_eq (List.mem_range.mp hk)]

theorem State.AgreeBelowLen.noiseSingle {s t : State} (h : s.AgreeBelowLen t)
    (stream : Nat → Nat) : (noiseSingle stream s).AgreeBelowLen (noiseSingle stream t) := by
  rw [Machine.noiseSingle, Machine.noiseSingle, h.nextDraw_eq, h.len_eq]
  exact h.advanceDraw.perturb _

theorem State.AgreeBelowLen.noiseBurst {s t : State} (h : s.AgreeBelowLen t)
    (stream : Nat → Nat) : (noiseBurst stream s).AgreeBelowLen (noiseBurst stream t) := by
  rw [Machine.noiseBurst, Machine.noiseBurst, h.nextDraw_eq, h.advanceDraw.nextDraw_eq, h.len_eq]
  exact h.advanceDraw.advanceDraw.perturbRun _ _

theorem State.AgreeBelowLen.noiseSingleChecked {s t : State} (h : s.AgreeBelowLen t)
    (stream : Nat → Nat) :
    (noiseSingleChecked stream s).AgreeBelowLen (noiseSingleChecked stream t) := by
  rw [Machine.noiseSingleChecked, Machine.noiseSingleChecked, ← h.len_eq]
  split
  · exact h.raiseInvalidIndex
  · exact h.noiseSingle stream

theorem State.AgreeBelowLen.noiseBurstChecked {s t : State} (h : s.AgreeBelowLen t)
    (stream : Nat → Nat) :
    (noiseBurstChecked stream s).AgreeBelowLen (noiseBurstChecked stream t) := by
  rw [Machine.noiseBurstChecked, Machine.noiseBurstChecked, ← h.len_eq]
  split
  · exact h.raiseInvalidIndex
  · exact h.noiseBurst stream

/-- R35: an effect reads elements below LEN only. -/
theorem State.AgreeBelowLen.effect {s t : State} (h : s.AgreeBelowLen t) (i : Instr) :
    (effect i s).AgreeBelowLen (effect i t) := by
  cases i with
  | encn | synd | encb => exact h.writeRes _
  | decn | decb => exact (h.writeRes _).writeNcor _
  | encm =>
    show (forEach Machine.encElement s.len s).AgreeBelowLen (forEach Machine.encElement t.len t)
    rw [← h.len_eq]
    exact forEach_relates (fun _ _ k hst => hst.encElement k) _ h
  | decm =>
    show ((forEach Machine.decElement s.len s).writeCnt (messageCount s)).AgreeBelowLen
      ((forEach Machine.decElement t.len t).writeCnt (messageCount t))
    rw [← h.len_eq, ← h.messageCount_eq]
    exact (forEach_relates (fun _ _ k hst => hst.decElement k) _ h).writeCnt _
  | noiseS => exact h.noiseSingleChecked Config.draw
  | noiseB => exact h.noiseBurstChecked Config.draw

/-! ### The elements at LEN and above -/

theorem readTxt_effect_of_len_le (i : Instr) {s : State} {k : Nat} (hk : s.len.val ≤ k) :
    (effect i s).readTxt k = s.readTxt k := by
  cases i with
  | encn | synd | decn | encb | decb => rfl
  | encm => rw [effect_encm_only_buf]; rfl
  | decm => rw [readTxt_effect_decm, if_neg (Nat.not_lt.mpr hk)]
  | noiseS => rw [effect_noiseS_only_buf_fault_drawn]; rfl
  | noiseB => rw [effect_noiseB_only_buf_fault_drawn]; rfl

theorem readBuf_noiseSingleChecked_of_len_le (stream : Nat → Nat) {s : State} {k : Nat}
    (hk : s.len.val ≤ k) : (noiseSingleChecked stream s).readBuf k = s.readBuf k := by
  obtain ⟨-, he⟩ | ⟨hl, he⟩ := noiseSingleChecked_cases stream s
  · rw [he, State.readBuf_raiseInvalidIndex]
  · have hdrawn : pick (s.nextDraw stream) s.len < s.len.val := pick_lt _ hl
    rw [he, readBuf_noiseSingle, if_neg (by omega)]

theorem readBuf_noiseBurstChecked_of_len_le (stream : Nat → Nat) {s : State} {k : Nat}
    (hk : s.len.val ≤ k) : (noiseBurstChecked stream s).readBuf k = s.readBuf k := by
  obtain ⟨-, he⟩ | ⟨hl, he⟩ := noiseBurstChecked_cases stream s
  · rw [he, State.readBuf_raiseInvalidIndex]
  · have hrun := drawn_run_le_len (s.nextDraw stream) (s.advanceDraw.nextDraw stream) hl
    rw [he, noiseBurst, readBuf_perturbRun]
    exact if_neg fun ⟨_, hlt⟩ => Nat.not_lt.mpr (hrun.trans hk) hlt

theorem readBuf_effect_of_len_le (i : Instr) {s : State} {k : Nat} (hk : s.len.val ≤ k) :
    (effect i s).readBuf k = s.readBuf k := by
  cases i with
  | encn | synd | decn | encb | decb => rfl
  | encm => rw [readBuf_effect_encm, if_neg (Nat.not_lt.mpr hk)]
  | decm => rw [effect_decm_only_txt_cnt]; rfl
  | noiseS => exact readBuf_noiseSingleChecked_of_len_le Config.draw hk
  | noiseB => exact readBuf_noiseBurstChecked_of_len_le Config.draw hk

/-- Settles O51: FAULT is one of the registers the two states agree on, so either both perform the
effect, which keeps the agreement and the elements at LEN and above, or both stay as they are. -/
theorem elementsAboveLenAreNeitherReadNorWritten :
    Obligations.ElementsAboveLenAreNeitherReadNorWritten := by
  intro i s t h
  simp only [exec_eq_perform]
  cases hs : s.fault with
  | none =>
    have ht : t.fault = .none := h.fault_eq ▸ hs
    refine ⟨_, _, perform_none hs _, perform_none ht _, h.effect i, fun k hk => ?_⟩
    have hk' : t.len.val ≤ k := h.len_eq ▸ hk
    exact ⟨readTxt_effect_of_len_le i hk, readBuf_effect_of_len_le i hk,
      readTxt_effect_of_len_le i hk', readBuf_effect_of_len_le i hk'⟩
  | invalidIndex =>
    have ht : t.fault = .invalidIndex := h.fault_eq ▸ hs
    exact ⟨_, _, perform_invalidIndex hs _, perform_invalidIndex ht _, h,
      fun _ _ => ⟨rfl, rfl, rfl, rfl⟩⟩

end Sys2Proof.Machine
end

section
/-! The order in which a loop visits its elements cannot be observed (`20_memory.md` R42,
`41_byte_message.md` R84): the loop bodies commute with one another. -/

namespace Sys2Proof.Machine

/-! ### Writes at different indices commute -/

theorem Memory.write_comm_of_lt {w : Nat} (m : Memory w) {j k : Nat} (h : j < k)
    (u v : BitVec w) :
    Memory.write (Memory.write m j u) k v = Memory.write (Memory.write m k v) j u := by
  have hkj : ¬k < j := by omega
  have hne : k ≠ j := by omega
  induction m with
  | nil => simp [Memory.write, h, hkj, hne]
  | cons c m ih =>
    obtain ⟨a, x⟩ := c
    rcases Nat.lt_trichotomy j a with hj | rfl | hj
    · rcases Nat.lt_trichotomy k a with hk | rfl | hk
      · simp [Memory.write, hj, hk, h, hkj, hne]
      · simp [Memory.write, h, hkj, hne]
      · simp [Memory.write, hj, hkj, hne, Nat.lt_asymm hk, Nat.ne_of_gt hk]
    · simp [Memory.write, hkj, hne]
    · have hk : a < k := hj.trans h
      simp [Memory.write, ih, Nat.lt_asymm hj, Nat.ne_of_gt hj, Nat.lt_asymm hk, Nat.ne_of_gt hk]

theorem Memory.write_comm {w : Nat} (m : Memory w) {j k : Nat} (h : j ≠ k) (u v : BitVec w) :
    Memory.write (Memory.write m j u) k v = Memory.write (Memory.write m k v) j u := by
  rcases Nat.lt_or_gt_of_ne h with hlt | hgt
  · exact Memory.write_comm_of_lt m hlt u v
  · exact (Memory.write_comm_of_lt m hgt v u).symm

theorem State.writeTxt_comm (s : State) {j k : Nat} (h : j ≠ k) (u v : Byte) :
    (s.writeTxt j u).writeTxt k v = (s.writeTxt k v).writeTxt j u :=
  congrArg (fun m => { s with txt := m }) (Memory.write_comm s.txt h u v)

theorem State.writeBuf_comm (s : State) {j k : Nat} (h : j ≠ k) (u v : EncodedByte) :
    (s.writeBuf j u).writeBuf k v = (s.writeBuf k v).writeBuf j u :=
  congrArg (fun m => { s with buf := m }) (Memory.write_comm s.buf h u v)

/-! ### The loop bodies commute -/

theorem encElement_comm (s : State) (j k : Nat) :
    encElement (encElement s j) k = encElement (encElement s k) j := by
  by_cases h : j = k
  · rw [h]
  · exact s.writeBuf_comm h _ _

theorem decElement_comm (s : State) (j k : Nat) :
    decElement (decElement s j) k = decElement (decElement s k) j := by
  by_cases h : j = k
  · rw [h]
  · exact s.writeTxt_comm h _ _

/-- An increment reads the element it writes and no other (R88). -/
theorem perturb_comm (s : State) (j k : Nat) :
    perturb (perturb s j) k = perturb (perturb s k) j := by
  by_cases h : j = k
  · rw [h]
  · have hk : (perturb s j).readBuf k = s.readBuf k :=
      (s.readBuf_writeBuf j _ k).trans (if_neg (Ne.symm h))
    have hj : (perturb s k).readBuf j = s.readBuf j :=
      (s.readBuf_writeBuf k _ j).trans (if_neg h)
    show (perturb s j).writeBuf k (increment ((perturb s j).readBuf k)) =
      (perturb s k).writeBuf j (increment ((perturb s k).readBuf j))
    rw [hk, hj]
    exact s.writeBuf_comm h _ _

/-! ### The loops -/

theorem forEach_eq_foldl (body : State → Nat → State) (n : Nat) (s : State) :
    forEach body n s = (List.range n).foldl body s := by
  induction n with
  | zero => rfl
  | succ n ih => rw [forEach, ih, List.range_succ, List.foldl_append]; rfl

/-- A loop over commuting bodies is the performing of its bodies in any order. -/
theorem forEach_eq_foldl_of_perm {body : State → Nat → State}
    (hcomm : ∀ s j k, body (body s j) k = body (body s k) j) {n : Nat} {order : List Nat}
    (horder : order.Perm (List.range n)) (s : State) :
    forEach body n s = order.foldl body s := by
  rw [forEach_eq_foldl]
  exact (horder.foldl_eq' (fun j _ k _ t => hcomm t j k) s).symm

theorem perturbRun_eq_foldl_of_perm {b i : Nat} {order : List Nat}
    (horder : order.Perm ((List.range b).map (i + ·))) (s : State) :
    perturbRun b i s = order.foldl perturb s := by
  rw [perturbRun, forEach_eq_foldl, horder.foldl_eq' (fun j _ k _ t => perturb_comm t j k) s,
    List.foldl_map]

theorem messageCount_eq_sum_of_perm {s : State} {order : List Nat}
    (horder : order.Perm (List.range s.len.val)) :
    (messageCount s).val = (order.map fun k => (decByte (s.readBuf k)).2).sum :=
  (correctedTotal_eq_sum s s.len).trans (horder.map _).sum_eq.symm

/-- Settles O34: the bodies of the three loops commute, in canonical memories and in others. -/
theorem visitingOrderCannotBeObserved : Obligations.VisitingOrderCannotBeObserved := by
  intro s _ hf
  refine ⟨fun order horder => ?_, fun order horder => ?_, fun b i order horder => ?_⟩
  · rw [exec_eq_perform, perform_none hf, ← forEach_eq_foldl_of_perm encElement_comm horder, effect]
  · refine ⟨messageCount s, ?_, messageCount_eq_sum_of_perm horder⟩
    rw [exec_eq_perform, perform_none hf, ← forEach_eq_foldl_of_perm decElement_comm horder]
    rfl
  · exact perturbRun_eq_foldl_of_perm horder s

end Sys2Proof.Machine
end

section
/-! The step and the host's accesses (`20_memory.md` R31, R36 to R38, R41, `10_state.md` R23,
`70_reset_and_hazards.md` R129). -/

namespace Sys2Proof.Machine

/-! ### Performing -/

theorem perform_completes (s : State) (f : State → State) : ∃ t, perform s f = .next t := by
  cases hf : s.fault with
  | none => exact ⟨_, perform_none hf f⟩
  | invalidIndex => exact ⟨_, perform_invalidIndex hf f⟩

theorem exec_completes (i : Instr) (s : State) : ∃ t, exec i s = .next t :=
  exec_eq_perform i s ▸ perform_completes s (effect i)

theorem hostMove_completes (a : HostAction) (s : State) : ∃ t, hostMove a s = .next t := by
  cases a with
  | issue w => exact exec_completes (decode w) s
  | putTxt | putBuf | putLen | look | reset => exact ⟨_, rfl⟩

/-- Settles O12: FAULT set or not, an operation is performed to its end, and every other move of the
host has a next state. -/
theorem everyStepCompletes : Obligations.EveryStepCompletes := by
  refine ⟨exec_completes, fun s => ?_⟩
  cases hq : s.queue with
  | nil => exact ⟨s, step_of_queue_nil hq⟩
  | cons a rest => exact step_of_queue_cons hq ▸ hostMove_completes a _

/-- Settles O7: a step is the host's next move, and issuing a word is performing what it decodes
to. -/
theorem stepPerformsTheIssuedCommand : Obligations.StepPerformsTheIssuedCommand :=
  ⟨fun _ _ _ hq => step_of_queue_cons hq,
    fun s nbits w => step_of_queue_cons (s := s.withFetchWord nbits w) rfl,
    fun _ => step_of_queue_nil⟩

/-! ### The host's writes -/

theorem hostPutTxt_of_lt {k : Nat} (h : k < Config.maxLen) (v : Byte) (s : State) :
    hostPutTxt k v s = s.writeTxt k v := if_pos h

theorem hostPutTxt_of_maxLen_le {k : Nat} (h : Config.maxLen ≤ k) (v : Byte) (s : State) :
    hostPutTxt k v s = s := if_neg (Nat.not_lt.mpr h)

theorem hostPutBuf_of_lt {k : Nat} (h : k < Config.maxLen) (v : EncodedByte) (s : State) :
    hostPutBuf k v s = s.writeBuf k v := if_pos h

theorem hostPutBuf_of_maxLen_le {k : Nat} (h : Config.maxLen ≤ k) (v : EncodedByte) (s : State) :
    hostPutBuf k v s = s := if_neg (Nat.not_lt.mpr h)

theorem hostPutLen_of_le_maxLen {n : Nat} (h : n ≤ Config.maxLen) (s : State) :
    hostPutLen n s = s.writeLen ⟨n, Nat.lt_succ_of_le h⟩ := dif_pos (Nat.lt_succ_of_le h)

theorem hostPutLen_of_maxLen_lt {n : Nat} (h : Config.maxLen < n) (s : State) :
    hostPutLen n s = s := dif_neg (Nat.not_lt.mpr h)

/-- Settles O8: the step is the host's write, which in range is one element's or LEN's and out of
range none. -/
theorem hostWritesInRangeOnly : Obligations.HostWritesInRangeOnly := by
  intro s rest k n v e
  refine ⟨fun hq hk => ⟨Memory.write s.txt k v, ?_, Memory.read_write s.txt k v⟩, fun hq hk => ?_,
    fun hq hk => ⟨Memory.write s.buf k e, ?_, Memory.read_write s.buf k e⟩, fun hq hk => ?_,
    fun hq hn => ⟨⟨n, Nat.lt_succ_of_le hn⟩, rfl, ?_⟩, fun hq hn => ?_⟩
  all_goals rw [step_of_queue_cons hq, hostMove]
  · rw [hostPutTxt_of_lt hk, State.writeTxt]
  · rw [hostPutTxt_of_maxLen_le hk]
  · rw [hostPutBuf_of_lt hk, State.writeBuf]
  · rw [hostPutBuf_of_maxLen_le hk]
  · rw [hostPutLen_of_le_maxLen hn, State.writeLen]
  · rw [hostPutLen_of_maxLen_lt hn]

/-! ### The host's reads -/

theorem hostRead_txt_of_lt {k : Nat} (h : k < Config.maxLen) (s : State) :
    hostRead (.txt k) s = .txt (s.readTxt k) := if_pos h

theorem hostRead_buf_of_lt {k : Nat} (h : k < Config.maxLen) (s : State) :
    hostRead (.buf k) s = .buf (s.readBuf k) := if_pos h

theorem hostRead_txt_of_maxLen_le {k : Nat} (h : Config.maxLen ≤ k) (s : State) :
    hostRead (.txt k) s = .refused := if_neg (Nat.not_lt.mpr h)

theorem hostRead_buf_of_maxLen_le {k : Nat} (h : Config.maxLen ≤ k) (s : State) :
    hostRead (.buf k) s = .refused := if_neg (Nat.not_lt.mpr h)

/-- A host read of an element of TXT sees the state through `State.readTxt` alone. -/
theorem hostRead_txt_congr {s t : State} {j : Nat} (h : s.readTxt j = t.readTxt j) :
    hostRead (.txt j) s = hostRead (.txt j) t := by
  rw [hostRead, hostRead, h]

/-- A host read of an element of BUF sees the state through `State.readBuf` alone. -/
theorem hostRead_buf_congr {s t : State} {j : Nat} (h : s.readBuf j = t.readBuf j) :
    hostRead (.buf j) s = hostRead (.buf j) t := by
  rw [hostRead, hostRead, h]

/-- R38 (b), (d): a register read answers what the register holds. -/
theorem hostRead_registers (s : State) :
    hostRead .len s = .len s.len.val ∧ hostRead .res s = .res s.res ∧
      hostRead .ncor s = .ncor s.ncor ∧ hostRead .cnt s = .cnt s.cnt.val ∧
      hostRead .fault s = .fault s.fault.code :=
  ⟨rfl, rfl, rfl, rfl, rfl⟩

/-- Settles O9: a host read answers the register, or what `State.readTxt` or `State.readBuf` reads
after the write, and the step of a read only takes the move off the queue. -/
theorem hostReadsAnswerTheLatestWrite : Obligations.HostReadsAnswerTheLatestWrite := by
  refine ⟨fun s => ?_, fun s k j v e hk => ?_⟩
  · obtain ⟨hlen, hres, hncor, hcnt, hfault⟩ := hostRead_registers s
    refine ⟨hlen, hres, hncor, hcnt, fun h => ?_, fun h => ?_, fun n hn => ?_, fun n hn => ?_⟩
    · rw [hfault, h, FaultFlag.code]
    · rw [hfault, h, FaultFlag.code]
    · rw [hostPutLen_of_le_maxLen hn, hostRead, State.writeLen_len]
    · rw [hostPutLen_of_maxLen_lt hn, hlen]
  · refine ⟨?_, ?_, fun hj => ?_, fun hj => ?_, ?_, ?_, fun hj => ⟨?_, ?_⟩, fun r rest hq => ?_⟩
    · rw [hostRead_txt_of_lt hk, State.readTxt_writeTxt, if_pos rfl]
    · rw [hostRead_buf_of_lt hk, State.readBuf_writeBuf, if_pos rfl]
    · exact hostRead_txt_congr ((s.readTxt_writeTxt k v j).trans (if_neg hj))
    · exact hostRead_buf_congr ((s.readBuf_writeBuf k e j).trans (if_neg hj))
    · exact hostRead_txt_congr (s.readTxt_writeBuf k e j)
    · exact hostRead_buf_congr (s.readBuf_writeTxt k v j)
    · exact hostRead_txt_of_maxLen_le hj s
    · exact hostRead_buf_of_maxLen_le hj s
    · exact step_of_queue_cons hq

end Sys2Proof.Machine
end

section
/-! The command word (`30_encoding.md` part B): its two fields, what the decoder does for each value
of `op`, the rows of the opcode table, and that decoding and encoding agree. -/

namespace Sys2Proof

/-! ### The two fields of a command word -/

@[simp] theorem opField_commandWord (op : BitVec 3) (arg : BitVec 14) :
    opField (commandWord op arg) = op :=
  BitVec.extractLsb'_append_eq_left

@[simp] theorem argField_commandWord (op : BitVec 3) (arg : BitVec 14) :
    argField (commandWord op arg) = arg :=
  BitVec.extractLsb'_append_eq_right

@[simp] theorem commandWord_opField_argField (w : CmdWord) :
    commandWord (opField w) (argField w) = w :=
  BitVec.extractLsb'_append_extractLsb'_eq_extractLsb' rfl |>.trans BitVec.extractLsb'_eq_self

/-- A command word is its two fields (R52). -/
theorem CmdWord.ext_fields {v w : CmdWord} (hop : opField v = opField w)
    (harg : argField v = argField w) : v = w := by
  rw [← commandWord_opField_argField v, hop, harg, commandWord_opField_argField]

@[simp] theorem opField_and (v w : CmdWord) : opField (v &&& w) = opField v &&& opField w :=
  BitVec.extractLsb'_and

@[simp] theorem argField_and (v w : CmdWord) : argField (v &&& w) = argField v &&& argField w :=
  BitVec.extractLsb'_and

/-! ### Operands: low fields of `arg` (R54) -/

section
variable {n : Nat} (hn : n ≤ 14)
include hn

/-- A low field of `arg` is the same field of the word. -/
theorem extractLsb'_argField (w : CmdWord) :
    (argField w).extractLsb' 0 n = w.extractLsb' 0 n := by
  ext i hi
  simp [argField, show i < 14 by omega]

theorem extractLsb'_zext14 (v : BitVec n) : (zext14 v).extractLsb' 0 n = v := by
  ext i hi
  simp [zext14, show i < 14 by omega, hi]

/-- An operand can be read back from the command word that carries it. -/
theorem extractLsb'_commandWord (op : BitVec 3) (v : BitVec n) :
    (commandWord op (zext14 v)).extractLsb' 0 n = v := by
  rw [← extractLsb'_argField hn, argField_commandWord, extractLsb'_zext14 hn]

end

/-- Zero-extending a low field of `arg` clears the bits above the field. -/
theorem zext14_extractLsb' (n : Nat) (arg : BitVec 14) :
    zext14 (arg.extractLsb' 0 n) = arg &&& zext14 (BitVec.allOnes n) := by
  ext i hi
  simp [zext14, hi, Bool.and_comm]

/-- The mode's bit is arg[0] (R50, R54). -/
theorem toBit_ofArg (arg : BitVec 14) : (Mode.ofArg arg).toBit = arg.extractLsb' 0 1 := by
  rw [Mode.ofArg]
  ext i hi
  obtain rfl : i = 0 := by omega
  cases h : arg[0] <;> simp [Mode.toBit, h]

/-- The mode is selected by bit 0 of the word. -/
theorem ofArg_argField (w : CmdWord) :
    Mode.ofArg (argField w) = bif w.getLsbD 0 then .burst else .single := by
  have h0 : (argField w)[0] = w.getLsbD 0 := by simp [argField]
  rw [Mode.ofArg, h0, cond_eq_ite]

/-! ### The decoder, one equation for each value of `op` (R53) -/

section
variable {w : CmdWord}

theorem decode_encn (h : opField w = 0#3) : decode w = .encn (w.extractLsb' 0 4) := by
  rw [decode, h, ← extractLsb'_argField (by decide)]
  rfl

theorem decode_synd (h : opField w = 1#3) : decode w = .synd (w.extractLsb' 0 7) := by
  rw [decode, h, ← extractLsb'_argField (by decide)]
  rfl

theorem decode_decn (h : opField w = 2#3) : decode w = .decn (w.extractLsb' 0 7) := by
  rw [decode, h, ← extractLsb'_argField (by decide)]
  rfl

theorem decode_encb (h : opField w = 3#3) : decode w = .encb (w.extractLsb' 0 8) := by
  rw [decode, h, ← extractLsb'_argField (by decide)]
  rfl

theorem decode_decb (h : opField w = 4#3) : decode w = .decb (w.extractLsb' 0 14) := by
  rw [decode, h]
  rfl

theorem decode_encm (h : opField w = 5#3) : decode w = .encm := by
  rw [decode, h]
  rfl

theorem decode_decm (h : opField w = 6#3) : decode w = .decm := by
  rw [decode, h]
  rfl

theorem decode_noise (h : opField w = 7#3) :
    decode w = decodeNoise (Mode.ofArg (argField w)) := by
  rw [decode, h]
  rfl

theorem decode_noiseS (h : opField w = 7#3) (h0 : w.getLsbD 0 = false) : decode w = .noiseS := by
  have hm : Mode.ofArg (argField w) = .single := by rw [ofArg_argField, h0, cond_false]
  rw [decode_noise h, hm, decodeNoise]

theorem decode_noiseB (h : opField w = 7#3) (h0 : w.getLsbD 0 = true) : decode w = .noiseB := by
  have hm : Mode.ofArg (argField w) = .burst := by rw [ofArg_argField, h0, cond_true]
  rw [decode_noise h, hm, decodeNoise]

end

/-! ### The rows of the opcode table (R59) -/

theorem row_mem_opcodeTable (i : Instr) : i.row ∈ opcodeTable := by
  cases i <;> simp [Instr.row, opcodeTable]

/-- No row ignores a bit of `op` (R55). -/
theorem TableRow.opField_used : ∀ r ∈ opcodeTable, opField r.used = 7#3 := by decide

/-- The bits that select a row are bits the row uses. -/
theorem TableRow.used_and_mask : ∀ r ∈ opcodeTable, r.used &&& r.mask = r.mask := by decide

/-- No word can select two rows: where two masks overlap, different rows' patterns differ. -/
theorem TableRow.eq_of_patterns_agree : ∀ r ∈ opcodeTable, ∀ r' ∈ opcodeTable,
    r.pattern &&& r'.mask = r'.pattern &&& r.mask → r = r' := by decide

/-- The rows a word selects are one row (R56). -/
theorem TableRow.eq_of_selects {r r' : TableRow} (hr : r ∈ opcodeTable) (hr' : r' ∈ opcodeTable)
    {w : CmdWord} (h : r.selects w) (h' : r'.selects w) : r = r' := by
  apply TableRow.eq_of_patterns_agree r hr r' hr'
  rw [← h, ← h', BitVec.and_assoc, BitVec.and_assoc, BitVec.and_comm r.mask]

/-! ### Decoding and encoding -/

/-- The decoder reads back every canonical word (R59). -/
theorem decode_encode (i : Instr) : decode (encode i) = i := by
  cases i with
  | encn n =>
    rw [encode, decode_encn (opField_commandWord ..), extractLsb'_commandWord (by decide)]
  | synd c =>
    rw [encode, decode_synd (opField_commandWord ..), extractLsb'_commandWord (by decide)]
  | decn c =>
    rw [encode, decode_decn (opField_commandWord ..), extractLsb'_commandWord (by decide)]
  | encb b =>
    rw [encode, decode_encb (opField_commandWord ..), extractLsb'_commandWord (by decide)]
  | decb e =>
    have he : commandWord 4#3 e = commandWord 4#3 (zext14 e) := by rw [zext14, BitVec.setWidth_eq]
    rw [encode, decode_decb (opField_commandWord ..), he, extractLsb'_commandWord le_rfl]
  | encm => exact decode_encm (opField_commandWord ..)
  | decm => exact decode_decm (opField_commandWord ..)
  | noiseS => exact decode_noiseS (opField_commandWord ..) (by decide)
  | noiseB => exact decode_noiseB (opField_commandWord ..) (by decide)

theorem opField_encode (i : Instr) : opField (encode i) = i.op := by
  cases i <;> exact opField_commandWord ..

/-- What re-encoding keeps of `arg` where the operand is the low `n` bits and the row uses these. -/
theorem argField_commandWord_operand (op : BitVec 3) (arg : BitVec 14) {n : Nat} {used : CmdWord}
    (h : argField used = zext14 (BitVec.allOnes n)) :
    argField (commandWord op (zext14 (arg.extractLsb' 0 n))) = arg &&& argField used := by
  rw [argField_commandWord, zext14_extractLsb', h]

/-- Re-encoding a NOISE word keeps arg[0] alone, which both rows of op 7 use. -/
theorem argField_encode_decodeNoise (arg : BitVec 14) :
    argField (encode (decodeNoise (Mode.ofArg arg))) =
      arg &&& argField (decodeNoise (Mode.ofArg arg)).row.used := by
  have hbit {used : CmdWord} (h : argField used = zext14 (BitVec.allOnes 1)) :
      argField (commandWord 7#3 (zext14 (Mode.ofArg arg).toBit)) = arg &&& argField used := by
    rw [toBit_ofArg, argField_commandWord_operand 7#3 arg h]
  generalize Mode.ofArg arg = m at hbit ⊢
  cases m with
  | single => exact hbit (show argField rowNoiseS.used = _ by decide)
  | burst => exact hbit (show argField rowNoiseB.used = _ by decide)

/-- Re-encoding a decoded word keeps of `arg` the bits its row uses (R54, R59). -/
theorem argField_encode_decode (w : CmdWord) :
    argField (encode (decode w)) = argField w &&& argField (decode w).row.used := by
  unfold decode
  split
  case h_1 => exact argField_commandWord_operand 0#3 _ (show argField rowEncn.used = _ by decide)
  case h_2 => exact argField_commandWord_operand 1#3 _ (show argField rowSynd.used = _ by decide)
  case h_3 => exact argField_commandWord_operand 2#3 _ (show argField rowDecn.used = _ by decide)
  case h_4 => exact argField_commandWord_operand 3#3 _ (show argField rowEncb.used = _ by decide)
  case h_5 =>
    have hused : argField rowDecb.used = BitVec.allOnes 14 := by decide
    rw [encode, Instr.row, hused, argField_commandWord, BitVec.and_allOnes]
  case h_6 =>
    have hused : argField rowEncm.used = 0#14 := by decide
    rw [encode, Instr.row, hused, argField_commandWord, BitVec.and_zero]
  case h_7 =>
    have hused : argField rowDecm.used = 0#14 := by decide
    rw [encode, Instr.row, hused, argField_commandWord, BitVec.and_zero]
  case h_8 => exact argField_encode_decodeNoise _

/-- Re-encoding a decoded word clears the bits its row ignores, and no others (R55, R59). -/
theorem encode_decode (w : CmdWord) : encode (decode w) = w &&& (decode w).row.used := by
  apply CmdWord.ext_fields
  · calc opField (encode (decode w))
      _ = opField w := by rw [opField_encode, op_decode]
      _ = opField w &&& 7#3 := BitVec.and_allOnes.symm
      _ = opField (w &&& (decode w).row.used) := by
        rw [opField_and, TableRow.opField_used _ (row_mem_opcodeTable _)]
  · rw [argField_encode_decode, argField_and]

/-! ### The row that a word selects (R56) -/

/-- R59 for every operation, from the lemmas of its constructors. -/
theorem encode_matches_row (i : Instr) : Laws.EncodeMatchesRow.Statement i := by
  cases i with
  | encn n => exact Laws.EncodeMatchesRow.encn n
  | synd c => exact Laws.EncodeMatchesRow.synd c
  | decn c => exact Laws.EncodeMatchesRow.decn c
  | encb b => exact Laws.EncodeMatchesRow.encb b
  | decb e => exact Laws.EncodeMatchesRow.decb e
  | encm => exact Laws.EncodeMatchesRow.encm
  | decm => exact Laws.EncodeMatchesRow.decm
  | noiseS => exact Laws.EncodeMatchesRow.noiseS
  | noiseB => exact Laws.EncodeMatchesRow.noiseB

/-- A word selects the row of what it decodes to: clearing its ignored bits gives a word that does,
and no ignored bit is in the row's mask. -/
theorem row_decode_selects (w : CmdWord) : (decode w).row.selects w := by
  obtain ⟨hsel, -⟩ := encode_matches_row (decode w)
  rwa [encode_decode, TableRow.selects, BitVec.and_assoc,
    TableRow.used_and_mask _ (row_mem_opcodeTable _)] at hsel

end Sys2Proof
end

section
/-! The obligations on decoding and encoding. -/

namespace Sys2Proof.Machine

/-- Settles O1, by comparing the two fields of the command words. -/
theorem decodeAndEncodeAgree : Obligations.DecodeAndEncodeAgree :=
  ⟨decode_encode, encode_decode⟩

/-- Settles O2: a word selects its own row, and no word selects two. -/
theorem everyWordSelectsExactlyItsRow : Obligations.EveryWordSelectsExactlyItsRow := by
  intro w
  have hmem : (decode w).row ∈ opcodeTable := row_mem_opcodeTable _
  refine ⟨hmem, fun r hr => ⟨fun h => ?_, fun h => ?_⟩⟩
  · exact TableRow.eq_of_selects hr hmem h (row_decode_selects w)
  · exact h ▸ row_decode_selects w

/-- Settles O3, by the decoder's equations. -/
theorem opFieldSelectsOperation : Obligations.OpFieldSelectsOperation := fun _ =>
  ⟨decode_encn, decode_synd, decode_decn, decode_encb, decode_decb, decode_encm, decode_decm,
    decode_noiseS, decode_noiseB⟩

/-- Settles O4: both words have one row and so, cleared of its ignored bits, one canonical word,
which decodes to the operation of each. -/
theorem ignoredArgBitsHaveNoEffect : Obligations.IgnoredArgBitsHaveNoEffect := by
  intro w w' s hsel hagree
  have hrow : (decode w).row = (decode w').row :=
    TableRow.eq_of_selects (row_mem_opcodeTable _) (row_mem_opcodeTable _) hsel
      (row_decode_selects w')
  have henc : encode (decode w') = encode (decode w) := by
    rw [encode_decode, encode_decode, ← hrow, hagree]
  rw [← decode_encode (decode w'), henc, decode_encode]

end Sys2Proof.Machine
end

section
/-! Assembling one written operation (`30_encoding.md` R58). -/

namespace Sys2Proof

/-- What an operation is written as assembles to it. -/
theorem assemble_source (i : Instr) : i.source.assemble = some i := by
  cases i with
  | encn v | synd v | decn v | encb v | decb v =>
    have hfits := v.isLt
    simp [Instr.source, SourceOp.assemble, SourceOp.wellFormed, hfits]
  | encm | decm | noiseS | noiseB => rfl

theorem wellFormed_of_assemble {o : SourceOp} {i : Instr} (h : o.assemble = some i) :
    o.wellFormed = true := by
  by_contra hwf
  simp [SourceOp.assemble, hwf] at h

/-- A line that assembles is how the operation is written: its operand is kept. -/
theorem source_of_assemble {o : SourceOp} {i : Instr} (h : o.assemble = some i) :
    i.source = o := by
  have hwf := wellFormed_of_assemble h
  cases o with
  | encn n | synd n | decn n | encb n | decb n =>
    simp only [SourceOp.assemble, if_pos hwf, Option.some.injEq] at h
    subst h
    simp only [Instr.source, BitVec.toNat_ofNat, Nat.mod_eq_of_lt (of_decide_eq_true hwf)]
  | encm | decm | noiseS | noiseB => cases h; rfl

end Sys2Proof

namespace Sys2Proof.Machine

/-- Settles O6: a line that assembles is how its result is written, and what an operation is written
as assembles to it. -/
theorem assemblingKeepsTheOperand : Obligations.AssemblingKeepsTheOperand := by
  refine fun o i => ⟨fun h => ⟨wellFormed_of_assemble h, source_of_assemble h⟩, ?_⟩
  rintro ⟨-, rfl⟩
  exact assemble_source i

end Sys2Proof.Machine
end

section
/-! The functions of the nibble-level operations (`40_hamming_nibble.md`): the bits of their results,
and ENC, SYN and DEC as a linear code that corrects one error. -/

namespace Sys2Proof.Machine

theorem xor_xor_cancel_left {w : Nat} (a b : BitVec w) : a ^^^ (a ^^^ b) = b := by
  rw [← BitVec.xor_assoc, BitVec.xor_self, BitVec.zero_xor]

/-! ### Zero-extension to RES (R20) -/

section
variable {w : Nat}

/-- Zero-extension keeps every bit, and reads 0 above them. -/
theorem getLsbD_zext14 (hw : w ≤ 14) (v : BitVec w) (i : Nat) :
    (zext14 v).getLsbD i = v.getLsbD i := by
  by_cases hi : i < 14
  · simp [zext14, hi]
  · simp [zext14, hi, BitVec.getLsbD_of_ge v i (by omega)]

theorem setWidth_zext14 (hw : w ≤ 14) (v : BitVec w) : (zext14 v).setWidth w = v :=
  BitVec.setWidth_setWidth_of_le v hw |>.trans (BitVec.setWidth_eq v)

theorem zext14_inj (hw : w ≤ 14) {u v : BitVec w} : zext14 u = zext14 v ↔ u = v :=
  ⟨fun h => by rw [← setWidth_zext14 hw u, h, setWidth_zext14 hw], congrArg zext14⟩

@[simp] theorem zext14_zero : zext14 (0#w) = 0#14 := BitVec.setWidth_zero 14 w

theorem zext14_ofNat {n : Nat} (hw : w ≤ 14) (hn : n < 2 ^ w) :
    zext14 (BitVec.ofNat w n) = BitVec.ofNat 14 n :=
  BitVec.setWidth_ofNat_of_le_of_lt hw hn

theorem popcount_setWidth_add (v : BitVec w) (d : Nat) :
    popcount (v.setWidth (w + d)) = popcount v := by
  have hlow : ∀ k ∈ List.range w, (v.setWidth (w + d)).getLsbD k ↔ v.getLsbD k := fun k hk => by
    have hkw : k < w := List.mem_range.mp hk
    simp [show k < w + d by omega]
  have hhigh : (List.range d).countP (fun k => (v.setWidth (w + d)).getLsbD (w + k)) = 0 :=
    List.countP_eq_zero.mpr (by simp)
  rw [popcount, List.range_add, List.countP_append, List.countP_map]
  exact congrArg₂ (· + ·) (List.countP_congr hlow) hhigh

end

/-- A codeword has as many 1 bits in RES as by itself. -/
theorem popcount_zext14_codeword (c : Codeword) : popcount (zext14 c) = popcount c :=
  popcount_setWidth_add c 7

/-! ### Bits of the layouts (R44, R45) -/

theorem getLsbD_packCodeword (p1 p2 d1 p3 d2 d3 d4 : Bool) (i : Nat) :
    (packCodeword p1 p2 d1 p3 d2 d3 d4).getLsbD i =
      [p1, p2, d1, p3, d2, d3, d4].getD i false := by
  simp only [packCodeword, BitVec.getLsbD_append, BitVec.getLsbD_ofBool]
  match i with
  | 0 | 1 | 2 | 3 | 4 | 5 | 6 => simp
  | i + 7 => simp

theorem getLsbD_packNibble (d1 d2 d3 d4 : Bool) (i : Nat) :
    (packNibble d1 d2 d3 d4).getLsbD i = [d1, d2, d3, d4].getD i false := by
  simp only [packNibble, BitVec.getLsbD_append, BitVec.getLsbD_ofBool]
  match i with
  | 0 | 1 | 2 | 3 => simp
  | i + 4 => simp

theorem getLsbD_enc (n : Nibble) (i : Nat) :
    (enc n).getLsbD i =
      [n.getLsbD 0 ^^ n.getLsbD 1 ^^ n.getLsbD 3, n.getLsbD 0 ^^ n.getLsbD 2 ^^ n.getLsbD 3,
        n.getLsbD 0, n.getLsbD 1 ^^ n.getLsbD 2 ^^ n.getLsbD 3, n.getLsbD 1, n.getLsbD 2,
        n.getLsbD 3].getD i false :=
  getLsbD_packCodeword ..

theorem getLsbD_ext (c : Codeword) (i : Nat) :
    (ext c).getLsbD i =
      [c.getLsbD 2, c.getLsbD 4, c.getLsbD 5, c.getLsbD 6].getD i false :=
  getLsbD_packNibble ..

/-- The three bits of the syndrome are the parities of the three groups (R64, R46). -/
theorem toNat_getLsbD_syn (c : Codeword) :
    ((syn c).getLsbD 0).toNat = parity (c &&& maskGroup1) ∧
    ((syn c).getLsbD 1).toNat = parity (c &&& maskGroup2) ∧
    ((syn c).getLsbD 2).toNat = parity (c &&& maskGroup3) := by
  revert c
  decide

/-! ### The code: valid codewords and their distance (R63, R65 (a), R67) -/

theorem enc_zero : enc 0#4 = 0#7 := rfl

theorem ext_enc (n : Nibble) : ext (enc n) = n := by
  revert n
  decide

theorem enc_inj {a b : Nibble} : enc a = enc b ↔ a = b :=
  ⟨fun h => by rw [← ext_enc a, h, ext_enc], congrArg enc⟩

@[simp] theorem syn_enc (n : Nibble) : syn (enc n) = 0#3 := by
  revert n
  decide

/-- Where the three checks agree, the parity bits are those of the data bits. -/
theorem enc_ext_of_syn_eq_zero {c : Codeword} (h : syn c = 0#3) : enc (ext c) = c := by
  revert c
  decide

theorem validCodeword_iff (c : Codeword) : ValidCodeword c ↔ syn c = 0#3 :=
  ⟨fun ⟨n, hn⟩ => hn ▸ syn_enc n, fun h => ⟨ext c, enc_ext_of_syn_eq_zero h⟩⟩

theorem popcount_enc {n : Nibble} (h : n ≠ 0#4) :
    popcount (enc n) = 3 ∨ popcount (enc n) = 4 ∨ popcount (enc n) = 7 := by
  revert n
  decide

/-- Two different codewords differ in at least 3 bits, as their sum is a codeword. -/
theorem three_le_popcount_enc_xor {a b : Nibble} (h : a ≠ b) :
    3 ≤ popcount (enc a ^^^ enc b) := by
  have hne : a ^^^ b ≠ 0#4 := mt BitVec.xor_eq_zero_iff.mp h
  rw [← enc_xor]
  have := popcount_enc hne
  omega

/-! ### The bit a syndrome names (R65 (c), R66) -/

/-- The error pattern that a syndrome names: none for 0, else the bit at its position. -/
def errorAt (p : Syndrome) : Codeword := if p = 0#3 then 0#7 else 1#7 <<< (p.toNat - 1)

/-- The corrector adds the error pattern that the syndrome names. -/
theorem cor_eq_xor_errorAt (c : Codeword) (p : Syndrome) : cor c p = c ^^^ errorAt p := by
  rw [cor, errorAt]
  split <;> simp

theorem getLsbD_errorAt (p : Syndrome) :
    ∀ j < 7, (errorAt p).getLsbD j = decide (p.toNat = j + 1) := by
  revert p
  decide

theorem syndrome_ofNat_ne_zero {p : Nat} (h0 : p ≠ 0) (h7 : p ≤ 7) : BitVec.ofNat 3 p ≠ 0#3 := by
  intro h
  have := congrArg BitVec.toNat h
  simp only [BitVec.toNat_ofNat] at this
  omega

theorem errorAt_ofNat {p : Nat} (h0 : p ≠ 0) (h7 : p ≤ 7) :
    errorAt (BitVec.ofNat 3 p) = 1#7 <<< (p - 1) := by
  rw [errorAt, if_neg (syndrome_ofNat_ne_zero h0 h7), BitVec.toNat_ofNat,
    Nat.mod_eq_of_lt (by omega)]

theorem syn_errorAt (p : Syndrome) : syn (errorAt p) = p := by
  revert p
  decide

theorem popcount_errorAt (p : Syndrome) : popcount (errorAt p) ≤ 1 := by
  revert p
  decide

/-- A pattern of at most one bit is the one its own syndrome names. -/
theorem errorAt_syn_of_popcount_le_one {e : Codeword} (h : popcount e ≤ 1) :
    errorAt (syn e) = e := by
  revert e
  decide

theorem popcount_singleBit {k : Nat} (hk : k < 7) : popcount (1#7 <<< k) = 1 := by
  revert k
  decide

/-- The syndrome of a single bit is its position, counted from 1. -/
theorem syn_singleBit {k : Nat} (hk : k < 7) : syn (1#7 <<< k) = BitVec.ofNat 3 (k + 1) := by
  have h := syn_errorAt (BitVec.ofNat 3 (k + 1))
  rwa [errorAt_ofNat (by omega) (by omega), Nat.add_sub_cancel] at h

/-! ### Decoding (R68, R72, R74) -/

theorem dec_fst (c : Codeword) : (dec c).1 = ext (cor c (syn c)) := rfl

/-- What is decoded is the codeword one obtains by correcting the bit the syndrome names (R66). -/
theorem enc_dec (c : Codeword) : enc (dec c).1 = c ^^^ errorAt (syn c) := by
  have hsyn : syn (c ^^^ errorAt (syn c)) = 0#3 := by
    rw [syn_xor, syn_errorAt, BitVec.xor_self]
  rw [dec_fst, cor_eq_xor_errorAt, enc_ext_of_syn_eq_zero hsyn]

/-- The syndrome of a codeword with an error pattern is the pattern's (R74). -/
@[simp] theorem syn_enc_xor (v : Nibble) (e : Codeword) : syn (enc v ^^^ e) = syn e := by
  rw [syn_xor, syn_enc, BitVec.zero_xor]

/-- An error pattern adds what it decodes to itself to the nibble. -/
theorem dec_enc_xor (v : Nibble) (e : Codeword) :
    (dec (enc v ^^^ e)).1 = v ^^^ (dec e).1 := by
  rw [← enc_inj, enc_dec, syn_enc_xor, enc_xor, enc_dec, BitVec.xor_assoc]

theorem dec_eq_zero_iff (e : Codeword) : (dec e).1 = 0#4 ↔ popcount e ≤ 1 := by
  rw [← enc_inj, enc_dec, enc_zero, BitVec.xor_eq_zero_iff]
  exact ⟨fun h => h ▸ popcount_errorAt _, fun h => (errorAt_syn_of_popcount_le_one h).symm⟩

/-- The value is right exactly when at most one bit is flipped (R74). -/
theorem dec_enc_xor_eq_iff (v : Nibble) (e : Codeword) :
    (dec (enc v ^^^ e)).1 = v ↔ popcount e ≤ 1 := by
  rw [dec_enc_xor, ← dec_eq_zero_iff]
  simp

/-- The decoded nibble's codeword is within one bit (R72). -/
theorem popcount_xor_enc_dec (c : Codeword) : popcount (c ^^^ enc (dec c).1) ≤ 1 := by
  rw [enc_dec, xor_xor_cancel_left]
  exact popcount_errorAt _

/-- No other codeword is within one bit (R72). -/
theorem eq_dec_of_popcount_xor_enc_le_one {c : Codeword} {m : Nibble}
    (h : popcount (c ^^^ enc m) ≤ 1) : m = (dec c).1 := by
  have hc : c = enc m ^^^ (c ^^^ enc m) := by
    rw [BitVec.xor_comm c, xor_xor_cancel_left]
  rw [hc]
  exact ((dec_enc_xor_eq_iff m _).mpr h).symm

/-- The decoded nibble's codeword is the operand itself exactly when the syndrome is 0. -/
theorem enc_dec_eq_self_iff (c : Codeword) : enc (dec c).1 = c ↔ syn c = 0#3 := by
  refine ⟨fun h => (validCodeword_iff c).mp ⟨_, h⟩, fun h => ?_⟩
  rw [enc_dec, h]
  exact BitVec.xor_zero

end Sys2Proof.Machine
end

section
/-! The obligations on ENCN, SYND and DECN (`40_hamming_nibble.md`). -/

namespace Sys2Proof.Machine

/-- The number written to NCOR is 0 when the syndrome is and else 1 (R68, R21). -/
theorem ncorOf_corrected (p : Syndrome) :
    ncorOf (correctedCount (corrected p)) = if p = 0#3 then 0#2 else 1#2 := by
  revert p
  decide

theorem ncor_eq_zero_iff (p : Syndrome) : (if p = 0#3 then 0#2 else 1#2) = 0#2 ↔ p = 0#3 := by
  split <;> simp [*]

/-! ### What each operation writes with FAULT = `None` -/

section
variable {s : State} (h : s.fault = .none)
include h

theorem exec_encn (n : Nibble) : exec (.encn n) s = .next { s with res := zext14 (enc n) } := by
  rw [exec_eq_perform, perform_none h]
  rfl

theorem exec_synd (c : Codeword) : exec (.synd c) s = .next { s with res := zext14 (syn c) } := by
  rw [exec_eq_perform, perform_none h]
  rfl

theorem exec_decn (c : Codeword) :
    exec (.decn c) s = .next { s with
      res := zext14 (dec c).1, ncor := if syn c = 0#3 then 0#2 else 1#2 } := by
  rw [exec_eq_perform, perform_none h, ← ncorOf_corrected]
  rfl

end

/-! ### ENCN -/

/-- Settles O14, bit by bit from the layout of a codeword. -/
theorem encnWritesTheCodeword : Obligations.EncnWritesTheCodeword := by
  refine ⟨fun _ => decode_encn, fun n s hs => ⟨_, exec_encn hs n, ?_⟩⟩
  simp only [getLsbD_zext14 (show 7 ≤ 14 by decide)]
  refine ⟨getLsbD_enc n 0, getLsbD_enc n 1, getLsbD_enc n 2, getLsbD_enc n 3, getLsbD_enc n 4,
    getLsbD_enc n 5, getLsbD_enc n 6, fun j hj => BitVec.getLsbD_of_ge _ _ hj, ?_, ?_, ?_⟩
  all_goals
    rintro rfl
    decide

/-- Settles O15, entry by entry. -/
theorem encnFollowsTheTable : Obligations.EncnFollowsTheTable := by
  have hentry : ∀ n : Nibble, encoderTable[n.toNat]? = some (enc n) := by decide
  exact fun n s hs => ⟨enc n, hentry n, exec_encn hs n⟩

/-- Settles O16, by linearity of ENC and the weights of the codewords. -/
theorem encnIsLinearWithDistanceThree : Obligations.EncnIsLinearWithDistanceThree := by
  intro a b s hs
  refine ⟨_, _, exec_encn hs a, exec_encn hs b, ?_, fun hab => ?_, fun ha => ?_⟩
  · rw [zext14_xor, ← enc_xor]
    exact exec_encn hs _
  · rw [zext14_xor, popcount_zext14_codeword]
    exact three_le_popcount_enc_xor hab
  · rw [popcount_zext14_codeword]
    exact popcount_enc ha

/-! ### SYND -/

/-- SYND of a single bit leaves its position in RES. -/
theorem zext14_syn_singleBit {k : Nat} (hk : k < 7) :
    zext14 (syn (1#7 <<< k)) = BitVec.ofNat 14 (k + 1) := by
  rw [syn_singleBit hk, zext14_ofNat (by decide) (by omega)]

/-- Settles O17, bit by bit, and each bit as the parity of its group. -/
theorem syndWritesTheSyndrome : Obligations.SyndWritesTheSyndrome := by
  refine ⟨fun _ => decode_synd, fun c s hs => ⟨_, exec_synd hs c, ?_⟩⟩
  simp only [getLsbD_zext14 (show 3 ≤ 14 by decide)]
  obtain ⟨hgroup1, hgroup2, hgroup3⟩ := toNat_getLsbD_syn c
  refine ⟨getLsbD_syn c 0 (by decide), getLsbD_syn c 1 (by decide), getLsbD_syn c 2 (by decide),
    fun j hj => BitVec.getLsbD_of_ge _ _ hj, hgroup1, hgroup2, hgroup3, ?_, ?_, ?_⟩
  all_goals
    rintro rfl
    decide

/-- Settles O18, by linearity of SYN and its value on single bits; the operands of each syndrome are
counted. -/
theorem syndromeLocatesTheFlippedBit : Obligations.SyndromeLocatesTheFlippedBit := by
  refine ⟨by decide, fun a b s hs => ?_⟩
  refine ⟨zext14 (syn a), zext14 (syn b), rfl, exec_synd hs a, exec_synd hs b, ?_, ?_, ?_, ?_⟩
  · rw [zext14_xor, ← syn_xor]
    exact exec_synd hs _
  · rw [validCodeword_iff, ← zext14_inj (show 3 ≤ 14 by decide), zext14_zero]
  · rintro k hk rfl
    exact zext14_syn_singleBit hk
  · rintro k hk ha rfl
    rw [(validCodeword_iff a).mp ha, zext14_syn_singleBit hk]
    simp

/-! ### DECN -/

theorem setWidth_syndrome_eq_zero_iff (p : Syndrome) : p.setWidth 7 = 0#7 ↔ p = 0#3 := by
  revert p
  decide

/-- Settles O19: DECN adds the error pattern that the syndrome names and takes out the data bits. -/
theorem decnWritesNibbleAndCorrected : Obligations.DecnWritesNibbleAndCorrected := by
  refine ⟨fun _ => decode_decn, fun c s hs => ?_⟩
  refine ⟨(syn c).setWidth 7, cor c (syn c), _, _, ?_, fun j hj => ?_, exec_decn hs c, ?_⟩
  · rw [exec_synd hs]
    rfl
  · rw [cor_eq_xor_errorAt, BitVec.getLsbD_xor, getLsbD_errorAt _ j hj,
      BitVec.toNat_setWidth_of_le (by decide)]
  simp only [getLsbD_zext14 (show 4 ≤ 14 by decide)]
  refine ⟨getLsbD_ext _ 0, getLsbD_ext _ 1, getLsbD_ext _ 2, getLsbD_ext _ 3,
    fun j hj => BitVec.getLsbD_of_ge _ _ hj, ?_, ?_, ?_, ?_, ?_⟩
  · simp only [setWidth_syndrome_eq_zero_iff]
  · rw [validCodeword_iff, ncor_eq_zero_iff]
  all_goals
    rintro rfl
    decide

/-- Settles O20: DECN and SYND of what ENCN left in RES, which is the codeword. -/
theorem cleanCodewordDecodesUncorrected : Obligations.CleanCodewordDecodesUncorrected := by
  intro v s hs
  obtain ⟨t, ht, hfault, hres⟩ :
      ∃ t, exec (.encn v) s = .next t ∧ t.fault = .none ∧ t.res = zext14 (enc v) :=
    ⟨_, exec_encn hs v, hs, rfl⟩
  refine ⟨t, ht, ?_⟩
  rw [hres, setWidth_zext14 (by decide), exec_decn hfault, exec_synd hfault, dec_enc, syn_enc]
  exact ⟨rfl, rfl⟩

/-- Settles O21: a single bit decodes to 0, which leaves the nibble as it was. -/
theorem singleBitErrorIsCorrected : Obligations.SingleBitErrorIsCorrected := by
  intro v k s hk hs
  have hval : (dec (enc v ^^^ 1#7 <<< k)).1 = v :=
    (dec_enc_xor_eq_iff v _).mpr (popcount_singleBit hk).le
  have hsyn : syn (1#7 <<< k) ≠ 0#3 :=
    syn_singleBit hk ▸ syndrome_ofNat_ne_zero (by omega) (by omega)
  refine ⟨?_, ?_⟩
  · rw [exec_decn hs, hval, syn_enc_xor, if_neg hsyn]
    rfl
  · rw [exec_synd hs, syn_enc_xor, zext14_syn_singleBit hk]

/-- Settles O22: the decoded nibble is the one whose codeword is within one bit. -/
theorem decnReturnsTheNearestCodeword : Obligations.DecnReturnsTheNearestCodeword := by
  intro c s hs
  refine ⟨(dec c).1, popcount_xor_enc_dec c, fun m hm => eq_dec_of_popcount_xor_enc_le_one hm, ?_⟩
  simp only [exec_decn hs, ext_enc, enc_dec_eq_self_iff]
  rfl

/-- The positions of two different bits add up to a third position. -/
theorem xor_positions : ∀ j < 7, ∀ k < 7, j ≠ k →
    (j + 1) ^^^ (k + 1) ≠ 0 ∧ (j + 1) ^^^ (k + 1) ≤ 7 ∧
      (j + 1) ^^^ (k + 1) ≠ j + 1 ∧ (j + 1) ^^^ (k + 1) ≠ k + 1 := by
  decide

theorem popcount_threeBits : ∀ i < 7, ∀ j < 7, ∀ k < 7, i ≠ j ∧ i ≠ k ∧ j ≠ k →
    popcount (1#7 <<< i ^^^ 1#7 <<< j ^^^ 1#7 <<< k) = 3 := by
  decide

theorem ne_of_popcount_enc_xor_eq_three {a b : Nibble} (h : popcount (enc a ^^^ enc b) = 3) :
    a ≠ b := by
  rintro rfl
  rw [BitVec.xor_self] at h
  exact absurd h (by decide)

theorem syn_twoBits {j k : Nat} (hj : j < 7) (hk : k < 7) :
    syn (1#7 <<< j ^^^ 1#7 <<< k) = BitVec.ofNat 3 ((j + 1) ^^^ (k + 1)) := by
  rw [syn_xor, syn_singleBit hj, syn_singleBit hk, BitVec.ofNat_xor]

/-- Settles O23: the syndrome of two flipped bits is the sum of their positions, and adding the
third bit that it names makes a codeword three bits away. -/
theorem twoBitErrorsAreMisdecoded : Obligations.TwoBitErrorsAreMisdecoded := by
  refine ⟨fun a b h => ?_, fun v j k s hj hk hjk hs => ?_⟩
  · rw [ext_enc, ext_enc]
    exact ne_of_popcount_enc_xor_eq_three h
  obtain ⟨hp0, hp7, hpj, hpk⟩ := xor_positions j hj k hk hjk
  have hsyn := syn_twoBits hj hk
  generalize (j + 1) ^^^ (k + 1) = p at *
  rw [BitVec.xor_assoc (enc v)]
  have henc : enc (dec (enc v ^^^ (1#7 <<< j ^^^ 1#7 <<< k))).1 =
      enc v ^^^ (1#7 <<< j ^^^ 1#7 <<< k) ^^^ 1#7 <<< (p - 1) := by
    rw [enc_dec, syn_enc_xor, hsyn, errorAt_ofNat hp0 hp7]
  have hdist : popcount (enc v ^^^ enc (dec (enc v ^^^ (1#7 <<< j ^^^ 1#7 <<< k))).1) = 3 := by
    rw [henc, BitVec.xor_assoc (enc v), xor_xor_cancel_left]
    exact popcount_threeBits j hj k hk (p - 1) (by omega) (by omega)
  refine ⟨_, p, (ne_of_popcount_enc_xor_eq_three hdist).symm, rfl, hp0, hp7, hpj, hpk, ?_, ?_,
    henc, hdist⟩
  · rw [exec_synd hs, syn_enc_xor, hsyn, zext14_ofNat (by decide) (by omega)]
  · rw [exec_decn hs, syn_enc_xor, hsyn, if_neg (syndrome_ofNat_ne_zero hp0 hp7)]
    rfl

/-- Settles O24: SYN is linear and 0 on codewords, and DEC of a codeword with a pattern differs
from the nibble by DEC of the pattern. -/
theorem decodedValueRightIffOneError : Obligations.DecodedValueRightIffOneError := by
  intro v e s hs
  refine ⟨_, syn e, _, exec_decn hs _, ?_, ?_, exec_synd hs e, ?_⟩
  · rw [← dec_enc_xor_eq_iff v e]
    exact zext14_inj (by decide)
  · rw [exec_synd hs, syn_enc_xor]
    rfl
  · rw [syn_enc_xor, ncor_eq_zero_iff]

end Sys2Proof.Machine
end

section
/-! The functions of the byte-level operations (`41_byte_message.md`): ENCBYTE and DECBYTE act on the
two halves independently, so the laws of the nibble code carry over to bytes. -/

namespace Sys2Proof.Machine

/-! ### Halves and exclusive-or -/

theorem joinCodewords_xor (a b c d : Codeword) :
    joinCodewords (a ^^^ b) (c ^^^ d) = joinCodewords a c ^^^ joinCodewords b d :=
  BitVec.xor_append.symm

theorem upperNibble_xor (a b : Byte) : upperNibble (a ^^^ b) = upperNibble a ^^^ upperNibble b :=
  BitVec.extractLsb'_xor

theorem lowerNibble_xor (a b : Byte) : lowerNibble (a ^^^ b) = lowerNibble a ^^^ lowerNibble b :=
  BitVec.extractLsb'_xor

theorem toNat_joinNibbles (u l : Nibble) : (joinNibbles u l).toNat = 16 * u.toNat + l.toNat := by
  rw [joinNibbles, BitVec.toNat_append, ← Nat.shiftLeft_add_eq_or_of_lt l.isLt, Nat.shiftLeft_eq,
    Nat.mul_comm]

/-- A byte in RES, as the number its nibbles make (R77). -/
theorem zext14_joinNibbles (u l : Nibble) :
    zext14 (joinNibbles u l) = BitVec.ofNat 14 (16 * u.toNat + l.toNat) := by
  rw [zext14, ← BitVec.ofNat_toNat, toNat_joinNibbles]

/-! ### ENCBYTE (R76) -/

@[simp] theorem upperCodeword_encByte (b : Byte) :
    upperCodeword (encByte b) = enc (upperNibble b) :=
  upperCodeword_join _ _

@[simp] theorem lowerCodeword_encByte (b : Byte) :
    lowerCodeword (encByte b) = enc (lowerNibble b) :=
  lowerCodeword_join _ _

theorem encByte_xor (a b : Byte) : encByte (a ^^^ b) = encByte a ^^^ encByte b := by
  simp only [encByte, upperNibble_xor, lowerNibble_xor, enc_xor, joinCodewords_xor]

/-! ### DECBYTE (R77, R85) -/

/-- A correction is counted exactly when the operand is not the codeword of what it decodes to. -/
theorem correctedCount_dec (c : Codeword) :
    correctedCount (dec c).2 = if enc (dec c).1 = c then 0 else 1 := by
  have hcount : ∀ p : Syndrome, correctedCount (corrected p) = if p = 0#3 then 0 else 1 := by decide
  simp only [enc_dec_eq_self_iff]
  exact hcount (syn c)

/-- Within one bit of a codeword, its nibble is decoded, and a difference is counted. -/
theorem dec_of_popcount_le_one {v : Nibble} {c : Codeword} (h : popcount (enc v ^^^ c) ≤ 1) :
    (dec c).1 = v ∧ correctedCount (dec c).2 = if enc v = c then 0 else 1 := by
  have hv : v = (dec c).1 := eq_dec_of_popcount_xor_enc_le_one (BitVec.xor_comm (enc v) c ▸ h)
  exact ⟨hv.symm, hv ▸ correctedCount_dec c⟩

/-- With at most one flipped bit in each half the byte comes back, and the halves that differ are
counted (R85). -/
theorem decByte_of_atMostOneBitPerCodeword {b : Byte} {e : EncodedByte}
    (h : AtMostOneBitPerCodeword (encByte b) e) :
    decByte e = (b, codewordsChanged (encByte b) e) := by
  obtain ⟨hu, hl⟩ := h
  rw [upperCodeword_encByte] at hu
  rw [lowerCodeword_encByte] at hl
  obtain ⟨hvu, hku⟩ := dec_of_popcount_le_one hu
  obtain ⟨hvl, hkl⟩ := dec_of_popcount_le_one hl
  rw [decByte, hvu, hvl, hku, hkl, join_nibbles, codewordsChanged, upperCodeword_encByte,
    lowerCodeword_encByte]

theorem codewordsChanged_self (e : EncodedByte) : codewordsChanged e e = 0 := by
  simp [codewordsChanged]

theorem atMostOneBitPerCodeword_refl (e : EncodedByte) : AtMostOneBitPerCodeword e e := by
  have hzero : popcount (0#7) ≤ 1 := by decide
  simp [AtMostOneBitPerCodeword, hzero]

theorem decByte_encByte (b : Byte) : decByte (encByte b) = (b, 0) :=
  codewordsChanged_self (encByte b) ▸
    decByte_of_atMostOneBitPerCodeword (atMostOneBitPerCodeword_refl (encByte b))

theorem encByte_inj {a b : Byte} : encByte a = encByte b ↔ a = b := by
  refine ⟨fun h => ?_, congrArg encByte⟩
  have hdec := congrArg decByte h
  rw [decByte_encByte, decByte_encByte] at hdec
  exact congrArg Prod.fst hdec

end Sys2Proof.Machine
end

section
/-! The obligations on ENCB and DECB (`41_byte_message.md`). -/

namespace Sys2Proof.Machine

/-! ### What each operation writes with FAULT = `None` -/

section
variable {s : State} (h : s.fault = .none)
include h

theorem exec_of_fault_none (i : Instr) : exec i s = .next (effect i s) := by
  rw [exec_eq_perform, perform_none h]

theorem exec_encb (b : Byte) : exec (.encb b) s = .next { s with res := encByte b } := by
  have hres : zext14 (encByte b) = encByte b := BitVec.setWidth_eq _
  simp only [exec_of_fault_none h, effect, State.writeRes, hres]

theorem exec_decb (e : EncodedByte) :
    exec (.decb e) s =
      .next { s with res := zext14 (decByte e).1, ncor := ncorOf (decByte e).2 } :=
  exec_of_fault_none h _

end

/-! ### ENCB -/

/-- Settles O26: the halves of an encoded byte are the codewords that ENCN gives. -/
theorem encbWritesTwoCodewords : Obligations.EncbWritesTwoCodewords := by
  refine ⟨fun _ => decode_encb, fun b s hs => ⟨encByte b, exec_encb hs b, ?_, ?_, ?_, ?_, ?_⟩⟩
  · have hu : (encByte b).extractLsb' 7 7 = enc (b.extractLsb' 4 4) := upperCodeword_encByte b
    rw [hu]
    exact exec_encn hs _
  · have hl : (encByte b).extractLsb' 0 7 = enc (b.extractLsb' 0 4) := lowerCodeword_encByte b
    rw [hl]
    exact exec_encn hs _
  all_goals
    rintro rfl
    decide

/-- Settles O27: ENC is linear half by half, and DECBYTE undoes ENCBYTE. -/
theorem encbIsLinearAndInjective : Obligations.EncbIsLinearAndInjective :=
  fun a b _ hs =>
    ⟨encByte a, encByte b, exec_encb hs a, exec_encb hs b, encByte_xor a b ▸ exec_encb hs _,
      encByte_inj⟩

/-! ### DECB -/

theorem ncorOf_add (m n : Nat) : ncorOf (m + n) = ncorOf m + ncorOf n := BitVec.ofNat_add m n

/-- Two halves' counts add up in NCOR without a wrap (R21). -/
theorem toNat_ncorOf_add (j k : Bool) :
    (ncorOf (correctedCount j) + ncorOf (correctedCount k)).toNat =
        (ncorOf (correctedCount j)).toNat + (ncorOf (correctedCount k)).toNat ∧
      (ncorOf (correctedCount j) + ncorOf (correctedCount k)).toNat ≤ 2 := by
  revert j k
  decide

/-- Settles O28: DECBYTE joins what DECN gives for the halves and adds up the counts. -/
theorem decbDecodesEachHalf : Obligations.DecbDecodesEachHalf := by
  refine ⟨fun _ => decode_decb, fun e s hs => ?_⟩
  have hdecn (c : Codeword) : exec (.decn c) s = .next { s with
      res := zext14 (dec c).1, ncor := ncorOf (correctedCount (dec c).2) } := by
    rw [exec_decn hs, ← ncorOf_corrected]
    rfl
  obtain ⟨hsum, hle⟩ := toNat_ncorOf_add (dec (upperCodeword e)).2 (dec (lowerCodeword e)).2
  refine ⟨_, _, _, _, hdecn (upperCodeword e), hdecn (lowerCodeword e), ?_, hsum, hle, ?_, ?_⟩
  · rw [exec_decb hs, decByte, zext14_joinNibbles, ncorOf_add]
  all_goals
    rintro rfl
    decide

/-- Settles O29, by what DECBYTE gives within one bit of each codeword. -/
theorem decbCorrectsOneBitPerHalf : Obligations.DecbCorrectsOneBitPerHalf := by
  intro b e s hs he
  rw [exec_decb hs, decByte_of_atMostOneBitPerCodeword he]
  rfl

end Sys2Proof.Machine
end

section
/-! The obligations on ENCM and DECM (`41_byte_message.md`). -/

namespace Sys2Proof.Machine

/-! ### Every element (R80 to R82) -/

/-- Settles O30, by what ENCM's loop leaves at each index of BUF. -/
theorem encmEncodesEveryElement : Obligations.EncmEncodesEveryElement := by
  refine ⟨by decide, by decide, fun _ => decode_encm, fun s hs => ?_⟩
  have hread := read_encElements s.len s
  refine ⟨(effect .encm s).buf, ?_, hread, fun k hk => ?_⟩
  · rw [exec_of_fault_none hs, ← effect_encm_only_buf]
  · refine ⟨upperNibble (s.readTxt k), lowerNibble (s.readTxt k), ?_, (join_nibbles _).symm⟩
    exact (hread k).trans (if_pos hk)

/-- Settles O31, by what DECM's loop leaves at each index of TXT, and its count as a sum. -/
theorem decmDecodesEveryElement : Obligations.DecmDecodesEveryElement := by
  refine ⟨fun _ => decode_decm, fun s hs => ?_⟩
  refine ⟨(effect .decm s).txt, messageCount s, ?_, read_decElements s.len s,
    correctedTotal_eq_sum s s.len, correctedTotal_le s s.len⟩
  exact (exec_of_fault_none hs _).trans (congrArg _ (effect_decm_only_txt_cnt s))

/-! ### The empty message (R83) -/

/-- Settles O32: neither loop visits an element, and nothing is counted. -/
theorem emptyMessageWritesOnlyCnt : Obligations.EmptyMessageWritesOnlyCnt := by
  intro s hs hlen
  have hcount : messageCount s = 0 :=
    Fin.ext (congrArg (correctedTotal s) hlen)
  simp only [exec_of_fault_none hs, effect, hlen, forEach, hcount, State.writeCnt, and_self]

/-! ### ENCM, errors, DECM (R85) -/

/-- DECM of a message that ENCM encoded and in which at most one bit of each codeword was flipped
since: the text comes back, and the codewords that differ are counted. -/
theorem effect_decm_of_atMostOneBitPerCodeword {s t : State} (hlen : t.len = s.len)
    (h : ∀ k, k < s.len.val → AtMostOneBitPerCodeword ((effect .encm s).readBuf k) (t.readBuf k)) :
    (∀ k, k < s.len.val → (effect .decm t).readTxt k = s.readTxt k) ∧
    (effect .decm t).cnt.val = ((List.range s.len.val).map fun k =>
      codewordsChanged ((effect .encm s).readBuf k) (t.readBuf k)).sum := by
  have hdec : ∀ k, k < s.len.val → decByte (t.readBuf k) =
      (s.readTxt k, codewordsChanged ((effect .encm s).readBuf k) (t.readBuf k)) := fun k hk => by
    have hbits := h k hk
    rw [readBuf_effect_encm, if_pos hk] at hbits ⊢
    exact decByte_of_atMostOneBitPerCodeword hbits
  refine ⟨fun k hk => ?_, ?_⟩
  · rw [readTxt_effect_decm, hlen, if_pos hk, hdec k hk]
  · calc (effect .decm t).cnt.val
        = ((List.range s.len.val).map fun k => (decByte (t.readBuf k)).2).sum :=
          hlen ▸ correctedTotal_eq_sum t t.len
      _ = _ := congrArg List.sum (List.map_congr_left fun k hk =>
          congrArg Prod.snd (hdec k (List.mem_range.mp hk)))

/-- Settles O33: the clean round trip is the one in which no bit was flipped. -/
theorem messageRoundTripCorrectsOneBitPerCodeword :
    Obligations.MessageRoundTripCorrectsOneBitPerCodeword := by
  refine ⟨decByte_encByte, fun s hs _ => ?_⟩
  have hlen : (effect .encm s).len = s.len := effect_len _ s
  have hfault : (effect .encm s).fault = .none := by rw [effect_encm_only_buf]; exact hs
  refine ⟨⟨effect .decm (effect .encm s), ?_, ?_⟩, effect .encm s, exec_of_fault_none hs _, ?_⟩
  · simp only [execAll, exec_of_fault_none hs, exec_of_fault_none hfault]
  · obtain ⟨htxt, hcnt⟩ := effect_decm_of_atMostOneBitPerCodeword hlen fun _ _ =>
      atMostOneBitPerCodeword_refl _
    refine ⟨htxt, ?_⟩
    simp [hcnt, codewordsChanged_self]
  · intro t hft hlt hbits
    exact ⟨effect .decm t, exec_of_fault_none hft _,
      effect_decm_of_atMostOneBitPerCodeword (hlt.trans hlen) hbits⟩

/-! ### DECM issued again (R81) -/

@[simp] theorem effect_decm_buf (s : State) : (effect .decm s).buf = s.buf := by
  rw [effect_decm_only_txt_cnt]

theorem readBuf_effect_decm (s : State) (k : Nat) : (effect .decm s).readBuf k = s.readBuf k := by
  rw [effect_decm_only_txt_cnt]
  rfl

theorem messageCount_effect_decm (s : State) : messageCount (effect .decm s) = messageCount s := by
  apply Fin.ext
  show correctedTotal (effect .decm s) (effect .decm s).len = correctedTotal s s.len
  simp only [correctedTotal_eq_sum, readBuf_effect_decm, effect_len]

/-- What DECM writes is a function of BUF, which it leaves alone. -/
theorem effect_decm_effect_decm {s : State} (h : s.Inv) :
    effect .decm (effect .decm s) = effect .decm s := by
  obtain ⟨⟨hwf, -⟩, -⟩ := effect_inv .decm h
  obtain ⟨⟨hwf', -⟩, -⟩ := effect_inv .decm (effect_inv .decm h)
  have htxt : (effect .decm (effect .decm s)).txt = (effect .decm s).txt := by
    refine Memory.ext_read hwf' hwf fun k => ?_
    calc Memory.read (effect .decm (effect .decm s)).txt k
        = if k < s.len.val then some (decByte (s.readBuf k)).1
          else Memory.read (effect .decm s).txt k := by
          rw [← readBuf_effect_decm, ← effect_len .decm s]
          exact read_decElements _ _ k
      _ = Memory.read (effect .decm s).txt k := by
          split
          case isTrue hk => exact ((read_decElements s.len s k).trans (if_pos hk)).symm
          case isFalse => rfl
  have hcnt : (effect .decm (effect .decm s)).cnt = (effect .decm s).cnt :=
    messageCount_effect_decm s
  rw [effect_decm_only_txt_cnt (effect .decm s), htxt, hcnt]

/-- Settles O35: DECM does not change BUF, so a second DECM writes what the first one did. -/
theorem decmCanBeIssuedAgain : Obligations.DecmCanBeIssuedAgain := by
  intro s t hs h
  obtain ⟨hf, rfl⟩ | ⟨-, rfl⟩ := exec_cases h
  · have hfault : (effect .decm s).fault = .none := by rw [effect_decm_only_txt_cnt]; exact hf
    exact ⟨effect_decm_buf s, by rw [exec_of_fault_none hfault, effect_decm_effect_decm hs]⟩
  · exact ⟨rfl, h⟩

end Sys2Proof.Machine
end

section
/-! The functions of the NOISE operations (`42_noise.md`): the increment of one element, bit by bit
and half by half, and what each operation leaves at each index of BUF. -/

namespace Sys2Proof.Machine

/-! ### The increment (R88, R92) -/

theorem toNat_increment (e : EncodedByte) : (increment e).toNat = (e.toNat + 1) % 16384 :=
  BitVec.toNat_add e 1#14

/-- The increment is the negation of the complement, so it flips a bit exactly when every bit below
it is 1. -/
theorem getLsbD_increment (e : EncodedByte) {j : Nat} (hj : j < 14) :
    (increment e).getLsbD j = (e.getLsbD j ^^ decide (∀ i < j, e.getLsbD i = true)) := by
  have hneg : increment e = -(~~~e) := by rw [BitVec.neg_eq_not_add, BitVec.not_not]; rfl
  have hbelow : (∃ i < j, (~~~e).getLsbD i = true) ↔ ¬∀ i < j, e.getLsbD i = true := by
    simp only [not_forall, Bool.not_eq_true, exists_prop]
    refine exists_congr fun i => and_congr_right fun hi => ?_
    simp [hi.trans hj]
  have hflip : decide (∃ i < j, (~~~e).getLsbD i = true) =
      !decide (∀ i < j, e.getLsbD i = true) := by
    rw [← decide_not, decide_eq_decide.mpr hbelow]
  rw [hneg, BitVec.getLsbD_neg, hflip, BitVec.getLsbD_not, decide_eq_true hj, Bool.true_and,
    Bool.true_and, Bool.not_xor_not]

/-- R92: the number of consecutive 1 bits from bit 0 on. -/
theorem exists_trailingOnes (e : EncodedByte) :
    ∃ t, t ≤ 14 ∧ (∀ j < t, e.getLsbD j = true) ∧ e.getLsbD t = false := by
  have hzero : ∃ t, e.getLsbD t = false := ⟨14, BitVec.getLsbD_of_ge e 14 (Nat.le_refl 14)⟩
  refine ⟨Nat.find hzero, Nat.find_min' hzero (BitVec.getLsbD_of_ge e 14 (Nat.le_refl 14)),
    fun j hj => ?_, Nat.find_spec hzero⟩
  exact Bool.eq_true_of_not_eq_false (Nat.find_min hzero hj)

/-- With t consecutive 1 bits, the bits that have only 1 bits below them are those up to t. -/
theorem forall_below_iff_le_trailingOnes {e : EncodedByte} {t : Nat}
    (hones : ∀ j < t, e.getLsbD j = true) (hzero : e.getLsbD t = false) (j : Nat) :
    (∀ i < j, e.getLsbD i = true) ↔ j ≤ t := by
  refine ⟨fun h => ?_, fun h i hi => hones i (hi.trans_le h)⟩
  by_contra hlt
  exact absurd (h t (Nat.not_le.mp hlt)) (by simp [hzero])

theorem lowerCodeword_increment (e : EncodedByte) :
    lowerCodeword (increment e) = lowerCodeword e + 1#7 := by
  apply BitVec.eq_of_toNat_eq
  simp only [lowerCodeword, BitVec.extractLsb'_toNat, BitVec.toNat_add, toNat_increment,
    BitVec.toNat_ofNat, Nat.shiftRight_zero]
  omega

theorem upperCodeword_increment (e : EncodedByte) :
    upperCodeword (increment e) =
      if lowerCodeword e = 127#7 then upperCodeword e + 1#7 else upperCodeword e := by
  have he : e.toNat < 16384 := e.isLt
  have hlower : lowerCodeword e = 127#7 ↔ e.toNat % 128 = 127 := by
    simp [← BitVec.toNat_inj, lowerCodeword]
  apply BitVec.eq_of_toNat_eq
  simp only [hlower]
  split <;>
    simp only [upperCodeword, BitVec.extractLsb'_toNat, BitVec.toNat_add, toNat_increment,
      BitVec.toNat_ofNat, Nat.shiftRight_eq_div_pow] <;>
    omega

@[simp] theorem readBuf_perturb_same (s : State) (k : Nat) :
    (perturb s k).readBuf k = increment (s.readBuf k) := by
  rw [perturb, State.readBuf_writeBuf, if_pos rfl]

/-! ### NOISE.S (R91) -/

theorem noiseSingleChecked_of_lt {s : State} (h : s.len.val < 1) (stream : Nat → Nat) :
    noiseSingleChecked stream s = s.raiseInvalidIndex :=
  if_pos h

theorem noiseSingleChecked_of_le {s : State} (h : 1 ≤ s.len.val) (stream : Nat → Nat) :
    noiseSingleChecked stream s = noiseSingle stream s :=
  if_neg (Nat.not_lt.mpr h)

/-- NOISE.S: BUF after it, index by index. -/
theorem read_noiseSingleChecked (stream : Nat → Nat) (s : State) (k : Nat) :
    Memory.read (noiseSingleChecked stream s).buf k =
      if 1 ≤ s.len.val ∧ k = pick (s.nextDraw stream) s.len then some (increment (s.readBuf k))
      else Memory.read s.buf k := by
  obtain ⟨hl, he⟩ | ⟨hl, he⟩ := noiseSingleChecked_cases stream s
  · rw [he, State.raiseInvalidIndex_buf, if_neg (by omega)]
  · rw [he, noiseSingle, perturb, State.writeBuf_buf, Memory.read_write]
    by_cases hk : k = pick (s.nextDraw stream) s.len
    · rw [if_pos hk, if_pos ⟨hl, hk⟩, hk, State.readBuf_advanceDraw]
    · rw [if_neg hk, if_neg fun h => hk h.2, State.advanceDraw_buf]

theorem noiseSingle_of_draw {stream : Nat → Nat} {s : State}
    (h : s.nextDraw stream < s.len.val) :
    noiseSingle stream s = { perturb s (s.nextDraw stream) with drawn := s.drawn + 1 } := by
  rw [noiseSingle, pick_of_lt h]
  rfl

/-! ### NOISE.B (R93) -/

theorem noiseBurstChecked_of_lt {s : State} (h : s.len.val < 6) (stream : Nat → Nat) :
    noiseBurstChecked stream s = s.raiseInvalidIndex :=
  if_pos h

theorem noiseBurstChecked_of_le {s : State} (h : 6 ≤ s.len.val) (stream : Nat → Nat) :
    noiseBurstChecked stream s = noiseBurst stream s :=
  if_neg (Nat.not_lt.mpr h)

section
variable {stream : Nat → Nat} {s : State} {b i : Nat}
  (hb : b = pick (s.nextDraw stream) (Config.burstMax + 1))
  (hi : i = pick (s.advanceDraw.nextDraw stream) (s.len - b + 1))

include hb in
theorem drawn_length_le_five : b ≤ 5 :=
  hb ▸ Nat.le_of_lt_succ (pick_lt _ (Nat.succ_pos _))

include hb hi

theorem drawn_end_le_len (h : 6 ≤ s.len.val) : i + b ≤ s.len.val := by
  subst hb hi
  exact drawn_run_le_len _ _ h

/-- NOISE.B: BUF after it, index by index. -/
theorem read_noiseBurstChecked (k : Nat) :
    Memory.read (noiseBurstChecked stream s).buf k =
      if 6 ≤ s.len.val ∧ i ≤ k ∧ k < i + b then some (increment (s.readBuf k))
      else Memory.read s.buf k := by
  obtain ⟨hl, he⟩ | ⟨hl, he⟩ := noiseBurstChecked_cases stream s
  · rw [he, State.raiseInvalidIndex_buf, if_neg (by omega)]
  · subst hb hi
    rw [he, noiseBurst, read_perturbRun]
    simp only [hl, true_and]
    rfl

end

theorem perturbRun_advanceDraw (b i : Nat) (s : State) :
    perturbRun b i s.advanceDraw = (perturbRun b i s).advanceDraw := by
  induction b with
  | zero => rfl
  | succ b ih => rw [perturbRun_succ, perturbRun_succ, ih]; rfl

theorem noiseBurst_of_draws {stream : Nat → Nat} {s : State} (hb : s.nextDraw stream ≤ 5)
    (hi : s.advanceDraw.nextDraw stream + s.nextDraw stream ≤ s.len.val) :
    noiseBurst stream s =
      { perturbRun (s.nextDraw stream) (s.advanceDraw.nextDraw stream) s with
        drawn := s.drawn + 2 } := by
  have hlen : pick (s.nextDraw stream) (Config.burstMax + 1) = s.nextDraw stream :=
    pick_of_lt (Nat.lt_succ_of_le hb)
  have hstart : pick (s.advanceDraw.nextDraw stream) (s.len - s.nextDraw stream + 1) =
      s.advanceDraw.nextDraw stream := pick_of_lt (by omega)
  rw [noiseBurst, hlen, hstart, perturbRun_advanceDraw, perturbRun_advanceDraw, perturbRun_only_buf]
  rfl

/-- A source of numbers whose number t is b and whose others are i. -/
def burstSource (t b i : Nat) : Nat → Nat := fun n => if n = t then b else i

theorem nextDraw_burstSource (s : State) (b i : Nat) :
    s.nextDraw (burstSource s.drawn b i) = b :=
  if_pos rfl

theorem nextDraw_advanceDraw_burstSource (s : State) (b i : Nat) :
    s.advanceDraw.nextDraw (burstSource s.drawn b i) = i :=
  if_neg (Nat.succ_ne_self s.drawn)

end Sys2Proof.Machine
end

section
/-! A freshly encoded byte after one increment (`42_noise.md` R99). -/

namespace Sys2Proof.Machine

@[simp] theorem upperNibble_join (u l : Nibble) : upperNibble (joinNibbles u l) = u :=
  BitVec.eq_of_getLsbD_eq fun i hi => by
    simp [upperNibble, getLsbD_joinNibbles, hi]

@[simp] theorem lowerNibble_join (u l : Nibble) : lowerNibble (joinNibbles u l) = l :=
  BitVec.eq_of_getLsbD_eq fun i hi => by
    simp [lowerNibble, getLsbD_joinNibbles, hi]

theorem joinNibbles_inj {u l u' l' : Nibble} :
    joinNibbles u l = joinNibbles u' l' ↔ u = u' ∧ l = l' := by
  refine ⟨fun h => ⟨?_, ?_⟩, fun ⟨hu, hl⟩ => hu ▸ hl ▸ rfl⟩
  · simpa using congrArg upperNibble h
  · simpa using congrArg lowerNibble h

/-! ### The maps g and c -/

/-- 127 is the codeword of 15 and of no other nibble. -/
theorem enc_eq_127_iff (n : Nibble) : enc n = 127#7 ↔ n = 15#4 := by
  revert n
  decide

/-- The maps g and c of R99 are what decoding gives for a codeword's increment. -/
theorem dec_enc_add_one {n : Nibble} (h : n ≠ 15#4) :
    (dec (enc n + 1#7)).1 = incrementedNibble n ∧
      correctedCount (dec (enc n + 1#7)).2 = incrementedCount n := by
  revert n
  decide

theorem incrementedNibble_eq_self_iff {n : Nibble} (h : n ≠ 15#4) :
    incrementedNibble n = n ↔ n ∈ survivingNibbles := by
  revert n
  decide

/-! ### The three cases -/

/-- The upper codeword is reached only by the carry out of 127, the codeword of 15 (R92). -/
theorem upperCodeword_increment_encByte (u l : Nibble) :
    upperCodeword (increment (encByte (joinNibbles u l))) =
      if l = 15#4 then enc u + 1#7 else enc u := by
  simp only [upperCodeword_increment, upperCodeword_encByte, lowerCodeword_encByte,
    upperNibble_join, lowerNibble_join, enc_eq_127_iff]

theorem lowerCodeword_increment_encByte (u l : Nibble) :
    lowerCodeword (increment (encByte (joinNibbles u l))) = enc l + 1#7 := by
  rw [lowerCodeword_increment, lowerCodeword_encByte, lowerNibble_join]

/-- Case (a): the upper codeword stays as it was encoded. -/
theorem decByte_increment_of_lower_ne {l : Nibble} (h : l ≠ 15#4) (u : Nibble) :
    decByte (increment (encByte (joinNibbles u l))) =
      (joinNibbles u (incrementedNibble l), incrementedCount l) := by
  obtain ⟨hg, hc⟩ := dec_enc_add_one h
  have hclean : correctedCount false = 0 := rfl
  rw [decByte, upperCodeword_increment_encByte, if_neg h, lowerCodeword_increment_encByte, dec_enc,
    hg, hc, hclean, Nat.zero_add]

/-- Case (b): the lower codeword wraps to 0 and the upper one is incremented. -/
theorem decByte_increment_of_lower_eq {u : Nibble} (h : u ≠ 15#4) :
    decByte (increment (encByte (joinNibbles u 15#4))) =
      (joinNibbles (incrementedNibble u) 0#4, incrementedCount u) := by
  obtain ⟨hg, hc⟩ := dec_enc_add_one h
  have hwrap : dec (enc 15#4 + 1#7) = (0#4, false) := by decide
  have hclean : correctedCount false = 0 := rfl
  rw [decByte, upperCodeword_increment_encByte, if_pos rfl, lowerCodeword_increment_encByte, hwrap,
    hg, hc, hclean, Nat.add_zero]

/-- Case (c): all 14 bits wrap to 0. -/
theorem decByte_increment_of_both_eq :
    decByte (increment (encByte (joinNibbles 15#4 15#4))) = (0#8, 0) := by
  decide

/-- A byte survives one increment of its encoding exactly when its lower nibble does. -/
theorem decByte_increment_encByte_eq_iff (b : Byte) :
    (decByte (increment (encByte b))).1 = b ↔ lowerNibble b ∈ survivingNibbles := by
  obtain ⟨u, l, rfl⟩ : ∃ u l, b = joinNibbles u l := ⟨_, _, (join_nibbles b).symm⟩
  rw [lowerNibble_join]
  by_cases hl : l = 15#4
  · subst hl
    have hdies : 15#4 ∉ survivingNibbles := by decide
    refine iff_of_false ?_ hdies
    by_cases hu : u = 15#4
    · subst hu
      rw [decByte_increment_of_both_eq]
      decide
    · rw [decByte_increment_of_lower_eq hu, joinNibbles_inj]
      exact fun h => absurd h.2 (by decide)
  · rw [decByte_increment_of_lower_ne hl, joinNibbles_inj, ← incrementedNibble_eq_self_iff hl]
    exact and_iff_right rfl

/-! ### The bytes that survive -/

/-- A predicate of period n holds in n * m numbers m times as often as in n. -/
theorem countP_range_mul_of_periodic {p : Nat → Bool} {n : Nat} (hp : Function.Periodic p n)
    (m : Nat) : (List.range (n * m)).countP p = m * (List.range n).countP p := by
  induction m with
  | zero => simp
  | succ m ih =>
    have hblock : p ∘ (n * m + ·) = p := funext fun j => by
      rw [Function.comp_apply, Nat.add_comm, Nat.mul_comm]
      exact hp.nat_mul m j
    rw [Nat.mul_succ, List.range_add, List.countP_append, List.countP_map, hblock, ih, Nat.succ_mul]

theorem lowerNibble_ofNat_periodic :
    Function.Periodic (fun k => lowerNibble (BitVec.ofNat 8 k)) 16 := fun k => by
  apply BitVec.eq_of_toNat_eq
  simp only [lowerNibble, BitVec.extractLsb'_toNat, BitVec.toNat_ofNat, Nat.shiftRight_zero]
  omega

/-- With each of the 16 upper nibbles, eight lower ones survive. -/
theorem countP_surviving_bytes :
    ((List.range 256).countP fun k =>
      (decByte (increment (encByte (BitVec.ofNat 8 k)))).1 = BitVec.ofNat 8 k) = 128 := by
  simp only [decByte_increment_encByte_eq_iff]
  have hp := lowerNibble_ofNat_periodic.comp fun l => decide (l ∈ survivingNibbles)
  calc _ = 16 * (List.range 16).countP
          fun k => decide (lowerNibble (BitVec.ofNat 8 k) ∈ survivingNibbles) :=
        countP_range_mul_of_periodic hp 16
    _ = 16 * 8 := by decide

end Sys2Proof.Machine
end

section
/-! The obligations on NOISE.S and NOISE.B (`42_noise.md`). -/

namespace Sys2Proof.Machine

/-! ### NOISE.S and NOISE.B (R91, R93, R96) -/

/-- Settles O37, by what NOISE.S leaves at each index of BUF. -/
theorem noiseSIncrementsOneElement : Obligations.NoiseSIncrementsOneElement := by
  refine ⟨fun _ => decode_noiseS, fun s hs => ⟨fun hl => ?_, fun hl => ?_⟩⟩
  · obtain ⟨i, hi⟩ : ∃ i, i = pick (s.nextDraw Config.draw) s.len := ⟨_, rfl⟩
    refine ⟨i, increment (s.readBuf i), (noiseSingleChecked Config.draw s).buf, hi ▸ pick_lt _ hl,
      ?_, toNat_increment _, fun k => ?_⟩
    · rw [exec_of_fault_none hs, effect, noiseSingleChecked_of_le hl, ← noiseSingle_only_buf_drawn]
    · rw [read_noiseSingleChecked, ← hi]
      by_cases hk : k = i
      · rw [if_pos ⟨hl, hk⟩, if_pos hk, hk]
      · rw [if_neg fun h => hk h.2, if_neg hk]
  · rw [exec_of_fault_none hs, effect, noiseSingleChecked_of_lt hl, State.raiseInvalidIndex]

/-- Settles O38, by what NOISE.B leaves at each index of BUF. -/
theorem noiseBIncrementsOneRun : Obligations.NoiseBIncrementsOneRun := by
  refine ⟨fun _ => decode_noiseB, fun s hs => ⟨fun hl => ?_, fun hl => ?_⟩⟩
  · obtain ⟨b, hb⟩ : ∃ b, b = pick (s.nextDraw Config.draw) (Config.burstMax + 1) := ⟨_, rfl⟩
    obtain ⟨i, hi⟩ : ∃ i, i = pick (s.advanceDraw.nextDraw Config.draw) (s.len - b + 1) := ⟨_, rfl⟩
    refine ⟨b, i, (noiseBurstChecked Config.draw s).buf, drawn_length_le_five hb,
      drawn_end_le_len hb hi hl, ?_, fun k => ⟨fun hk => ?_, fun hk => ?_⟩⟩
    · rw [exec_of_fault_none hs, effect, noiseBurstChecked_of_le hl, ← noiseBurst_only_buf_drawn]
    · exact ⟨_, (read_noiseBurstChecked hb hi k).trans (if_pos ⟨hl, hk⟩), toNat_increment _⟩
    · exact (read_noiseBurstChecked hb hi k).trans (if_neg fun h => hk h.2)
  · rw [exec_of_fault_none hs, effect, noiseBurstChecked_of_lt hl, State.raiseInvalidIndex]

/-! ### The draws (R89, R97, R98) -/

/-- Settles O39: the source whose numbers are the wanted draws makes them. -/
theorem everyLegalDrawIsPossible : Obligations.EveryLegalDrawIsPossible := by
  intro s hs
  have hburst : 6 ≤ s.len.val → ∀ b i, b ≤ 5 → i + b ≤ s.len.val →
      ∃ stream : Nat → Nat,
        noiseBurstChecked stream s = { perturbRun b i s with drawn := s.drawn + 2 } := by
    intro hl b i hb hi
    have hdrawb := nextDraw_burstSource s b i
    have hdrawi := nextDraw_advanceDraw_burstSource s b i
    refine ⟨burstSource s.drawn b i, ?_⟩
    rw [noiseBurstChecked_of_le hl, noiseBurst_of_draws (by rwa [hdrawb]) (by rwa [hdrawi, hdrawb]),
      hdrawb, hdrawi]
  refine ⟨fun i hi => ⟨fun _ => i, ?_⟩, hburst, fun hl => ?_, exec_of_fault_none hs _,
    exec_of_fault_none hs _⟩
  · rw [noiseSingleChecked_of_le (Nat.one_le_of_lt hi)]
    exact noiseSingle_of_draw hi
  · obtain ⟨stream, h⟩ := hburst hl 0 0 (Nat.zero_le 5) (Nat.zero_le _)
    exact ⟨stream, by rw [h]; rfl⟩

/-- Settles O40, by what each operation leaves at each index of BUF and the ranges of the draws. -/
theorem noiseStaysBelowLen : Obligations.NoiseStaysBelowLen := by
  intro stream s
  have hdrawn : 1 ≤ s.len.val → pick (s.nextDraw stream) s.len < s.len.val := pick_lt _
  refine ⟨fun k hk => ⟨?_, ?_⟩, hdrawn, fun k hk => ?_, fun b i hb hi => ⟨?_, ?_, fun k hk => ?_⟩⟩
  · rw [read_noiseSingleChecked]
    refine if_neg fun ⟨hl, he⟩ => ?_
    exact Nat.not_lt.mpr hk (he ▸ hdrawn hl)
  · rw [read_noiseBurstChecked rfl rfl]
    refine if_neg fun ⟨hl, _, hlt⟩ => ?_
    exact Nat.not_lt.mpr ((drawn_end_le_len rfl rfl hl).trans hk) hlt
  · rw [read_noiseSingleChecked, if_neg fun h => hk h.2]
  · exact drawn_length_le_five hb
  · exact drawn_end_le_len hb hi
  · rw [read_noiseBurstChecked hb hi, if_neg fun h => hk h.2]

/-! ### The increment (R92, R99) -/

/-- Settles O41, by the increment bit by bit and half by half. -/
theorem incrementFlipsTheTrailingOnes : Obligations.IncrementFlipsTheTrailingOnes := by
  intro s k
  refine ⟨_, _, rfl, readBuf_perturb_same s k, ?_, lowerCodeword_increment _,
    upperCodeword_increment _⟩
  obtain ⟨t, ht, hones, hzero⟩ := exists_trailingOnes (s.readBuf k)
  refine ⟨t, ht, hones, hzero, fun j hj => ?_⟩
  rw [getLsbD_increment _ hj,
    decide_eq_decide.mpr (forall_below_iff_le_trailingOnes hones hzero j)]

/-- Settles O42: each case is what DECBYTE gives for the increment of the encoding. -/
theorem freshByteAfterOneIncrement : Obligations.FreshByteAfterOneIncrement := by
  refine ⟨countP_surviving_bytes, fun u l s hs =>
    ⟨fun hl => ⟨?_, incrementedNibble_eq_self_iff hl⟩, ?_, ?_⟩⟩
  · rw [exec_decb hs, decByte_increment_of_lower_ne hl]
    rfl
  · rintro rfl hu
    rw [exec_decb hs, decByte_increment_of_lower_eq hu]
    rfl
  · rintro rfl rfl
    rw [exec_decb hs, decByte_increment_of_both_eq]
    rfl

end Sys2Proof.Machine
end

section
/-! The obligations on the `InvalidIndex` fault (`60_exceptions.md`). -/

namespace Sys2Proof.Machine

/-! ### Taking the fault (R108) -/

/-- Settles O44: below its least LEN a NOISE operation only raises, and makes no draw. -/
theorem invalidIndexEntrySetsOnlyFault : Obligations.InvalidIndexEntrySetsOnlyFault := by
  intro s hs
  have hread (t : State) : hostRead .fault t = .fault t.fault.code := by
    obtain ⟨-, -, -, -, hfault⟩ := hostRead_registers t
    exact hfault
  refine ⟨fun hl => ⟨?_, noiseSingleChecked_of_lt hl⟩, fun hl => ⟨?_, noiseBurstChecked_of_lt hl⟩,
    ?_, hread _⟩
  · rw [exec_of_fault_none hs, effect, noiseSingleChecked_of_lt hl, State.raiseInvalidIndex]
  · rw [exec_of_fault_none hs, effect, noiseBurstChecked_of_lt hl, State.raiseInvalidIndex]
  · rw [hread, hs, FaultFlag.code]

/-! ### While FAULT is set (R109) -/

theorem exec_of_fault_invalidIndex {s : State} (h : s.fault = .invalidIndex) (i : Instr) :
    exec i s = .next s := by
  rw [exec_eq_perform, perform_invalidIndex h]

/-- Settles O45: FAULT is tested before any effect. -/
theorem faultedBlockPerformsNothing : Obligations.FaultedBlockPerformsNothing :=
  fun i _ hs => exec_of_fault_invalidIndex hs i

/-! ### The coding operations (R101) -/

theorem effect_fault_of_isCoding {i : Instr} (h : isCoding i) (s : State) :
    (effect i s).fault = s.fault := by
  cases i with
  | encn | synd | decn | encb | decb => rfl
  | encm => rw [effect_encm_only_buf]
  | decm => rw [effect_decm_only_txt_cnt]
  | noiseS | noiseB => exact h.elim

/-- Settles O47: a coding operation has an effect that does not write FAULT, or none at all. -/
theorem codingOperationsRaiseNothing : Obligations.CodingOperationsRaiseNothing := by
  intro i s hi
  obtain ⟨t, h⟩ := exec_completes i s
  refine ⟨t, h, ?_⟩
  obtain ⟨-, rfl⟩ | ⟨-, rfl⟩ := exec_cases h
  · exact effect_fault_of_isCoding hi s
  · rfl

end Sys2Proof.Machine
end

section
/-! Operations one after the other (`70_reset_and_hazards.md`): while every precondition on LEN
holds, a list of operations is its effects in a row. -/

namespace Sys2Proof.Machine

/-- A precondition is on LEN (R94, R95), which no operation writes (R19). -/
theorem preconditionHolds_effect (i j : Instr) (s : State) :
    preconditionHolds i (effect j s) ↔ preconditionHolds i s := by
  cases i with
  | encn | synd | decn | encb | decb | encm | decm => exact Iff.rfl
  | noiseS | noiseB => simp only [preconditionHolds, effect_len]

theorem effect_fault_of_preconditionHolds {i : Instr} {s : State} (hs : s.fault = .none)
    (h : preconditionHolds i s) : (effect i s).fault = .none := by
  cases hf : (effect i s).fault with
  | none => rfl
  | invalidIndex => exact absurd h ((effect_fault_iff i hs).mp hf)

/-- No operation of the list raises, so each performs its effect on what the ones before it left. -/
theorem execAll_of_preconditionsHold {is : List Instr} {s : State} (hs : s.fault = .none)
    (h : ∀ i ∈ is, preconditionHolds i s) :
    execAll is s = .next (is.foldl (fun t i => effect i t) s) := by
  induction is generalizing s with
  | nil => rfl
  | cons i is ih =>
    obtain ⟨hi, his⟩ := List.forall_mem_cons.mp h
    have hfault := effect_fault_of_preconditionHolds hs hi
    rw [execAll, exec_of_fault_none hs]
    exact ih hfault fun j hj => (preconditionHolds_effect j i s).mpr (his j hj)

/-! ### Only DECM writes TXT (R29) -/

@[simp] theorem effect_epoch (i : Instr) (s : State) : (effect i s).epoch = s.epoch := by
  cases i with
  | encn | synd | decn | encb | decb => rfl
  | encm => rw [effect_encm_only_buf]
  | decm => rw [effect_decm_only_txt_cnt]
  | noiseS => rw [effect_noiseS_only_buf_fault_drawn]
  | noiseB => rw [effect_noiseB_only_buf_fault_drawn]

theorem effect_txt_of_ne_decm {i : Instr} (h : i ≠ .decm) (s : State) :
    (effect i s).txt = s.txt := by
  cases i with
  | encn | synd | decn | encb | decb => rfl
  | encm => rw [effect_encm_only_buf]
  | decm => exact absurd rfl h
  | noiseS => rw [effect_noiseS_only_buf_fault_drawn]
  | noiseB => rw [effect_noiseB_only_buf_fault_drawn]

theorem readTxt_effect_of_ne_decm {i : Instr} (h : i ≠ .decm) (s : State) (k : Nat) :
    (effect i s).readTxt k = s.readTxt k := by
  rw [State.readTxt, effect_txt_of_ne_decm h, effect_epoch, State.readTxt]

end Sys2Proof.Machine
end

section
/-! A freshly encoded message after one NOISE.S (`70_reset_and_hazards.md` R120). -/

namespace Sys2Proof.Machine

/-! ### The correction counted for the byte that is hit (R99) -/

theorem incrementedCount_eq_zero_iff (n : Nibble) : incrementedCount n = 0 ↔ n = 6#4 ∨ n = 8#4 := by
  simp [incrementedCount, or_iff_not_imp_left]

/-- Nothing is counted exactly where the incremented codeword is itself valid: 51 + 1 and 75 + 1,
the successors of the codewords of 6 and 8, and the 0 that 127 wraps to. -/
theorem decByte_increment_encByte_count_eq_zero_iff (b : Byte) :
    (decByte (increment (encByte b))).2 = 0 ↔
      lowerNibble b = 6#4 ∨ lowerNibble b = 8#4 ∨ b = 0x6F#8 ∨ b = 0x8F#8 ∨ b = 0xFF#8 := by
  obtain ⟨u, l, rfl⟩ : ∃ u l, b = joinNibbles u l := ⟨_, _, (join_nibbles b).symm⟩
  have h6F : 0x6F#8 = joinNibbles 6#4 15#4 := rfl
  have h8F : 0x8F#8 = joinNibbles 8#4 15#4 := rfl
  have hFF : 0xFF#8 = joinNibbles 15#4 15#4 := rfl
  rw [lowerNibble_join, h6F, h8F, hFF, joinNibbles_inj, joinNibbles_inj, joinNibbles_inj]
  by_cases hl : l = 15#4
  · subst hl
    by_cases hu : u = 15#4
    · subst hu
      simp [decByte_increment_of_both_eq]
    · simp [decByte_increment_of_lower_eq hu, incrementedCount_eq_zero_iff, hu]
  · simp [decByte_increment_of_lower_ne hl, incrementedCount_eq_zero_iff, hl]

/-! ### The message with one element hit -/

/-- The message after ENCM and NOISE.S: the encoded text with the element drawn incremented. -/
theorem readBuf_noiseS_encm {s : State} (hlen : 1 ≤ s.len.val) {i k : Nat}
    (hi : i = pick ((effect .encm s).nextDraw Config.draw) s.len) (hk : k < s.len.val) :
    (effect .noiseS (effect .encm s)).readBuf k =
      if k = i then increment (encByte (s.readTxt k)) else encByte (s.readTxt k) := by
  have hlen' : 1 ≤ (effect .encm s).len.val := (effect_len .encm s).symm ▸ hlen
  have hnoise : effect .noiseS (effect .encm s) = noiseSingle Config.draw (effect .encm s) :=
    noiseSingleChecked_of_le hlen' _
  rw [hnoise, readBuf_noiseSingle, readBuf_effect_encm, if_pos hk, effect_len, ← hi]

/-- DECM of an encoded text with element i incremented: every other element decodes to itself with
nothing counted. -/
theorem effect_decm_of_one_incremented {s t : State} (hlen : t.len = s.len) {i : Nat}
    (hi : i < s.len.val)
    (h : ∀ k, k < s.len.val → t.readBuf k =
      if k = i then increment (encByte (s.readTxt k)) else encByte (s.readTxt k)) :
    (∀ k, k < s.len.val → k ≠ i → (effect .decm t).readTxt k = s.readTxt k) ∧
    (effect .decm t).readTxt i = (decByte (increment (encByte (s.readTxt i)))).1 ∧
    ((effect .decm t).cnt.val = 0 ↔ (decByte (increment (encByte (s.readTxt i)))).2 = 0) := by
  have hhit : t.readBuf i = increment (encByte (s.readTxt i)) := (h i hi).trans (if_pos rfl)
  have hother : ∀ k, k < s.len.val → k ≠ i → decByte (t.readBuf k) = (s.readTxt k, 0) :=
    fun k hk hki => by rw [h k hk, if_neg hki, decByte_encByte]
  have hcnt : (effect .decm t).cnt.val =
      ((List.range s.len.val).map fun k => (decByte (t.readBuf k)).2).sum :=
    hlen ▸ correctedTotal_eq_sum t t.len
  refine ⟨fun k hk hki => ?_, ?_, ?_⟩
  · rw [readTxt_effect_decm, hlen, if_pos hk, hother k hk hki]
  · rw [readTxt_effect_decm, hlen, if_pos hi, hhit]
  · rw [hcnt, List.sum_eq_zero_iff, List.forall_mem_map, ← hhit]
    refine ⟨fun hall => hall i (List.mem_range.mpr hi), fun hzero k hk => ?_⟩
    by_cases hki : k = i
    · exact hki ▸ hzero
    · rw [hother k (List.mem_range.mp hk) hki]

end Sys2Proof.Machine
end

section
/-! The obligations on operations one after the other (`70_reset_and_hazards.md` R120, R125). -/

namespace Sys2Proof.Machine

/-- Settles O36: neither ENCM nor NOISE writes TXT, so both times ENCM encodes the same text. -/
theorem reencodingWipesTheNoise : Obligations.ReencodingWipesTheNoise := by
  intro s i hs hpre hi
  have hne : i ≠ .decm := by rcases hi with rfl | rfl <;> decide
  have hencm : Instr.encm ≠ .decm := by decide
  have hpres : ∀ j ∈ [.encm, i, .encm], preconditionHolds j s := by
    have hcoding : preconditionHolds .encm s := trivial
    simp [hpre, hcoding]
  refine ⟨effect .encm s, effect .encm (effect i (effect .encm s)), exec_of_fault_none hs _,
    execAll_of_preconditionsHold hs hpres, ?_, fun k hk => ?_⟩
  · rw [effect_txt_of_ne_decm hencm, effect_txt_of_ne_decm hne]
  · rw [readBuf_effect_encm, readBuf_effect_encm, effect_len, effect_len, if_pos hk, if_pos hk,
      readTxt_effect_of_ne_decm hne, readTxt_effect_of_ne_decm hencm]

/-- Settles O43: DECM gives back what one increment does to the byte drawn, and the rest of the
text as it was. -/
theorem singleNoiseCycleRestoresOnlySurvivors :
    Obligations.SingleNoiseCycleRestoresOnlySurvivors := by
  intro s hs _ hlen
  obtain ⟨i, hdraw⟩ : ∃ i, i = pick ((effect .encm s).nextDraw Config.draw) s.len := ⟨_, rfl⟩
  have hi : i < s.len.val := hdraw ▸ pick_lt _ hlen
  have hpres : ∀ j ∈ [.encm, .noiseS, .decm], preconditionHolds j s := by
    simpa [preconditionHolds] using hlen
  have hlen' : (effect .noiseS (effect .encm s)).len = s.len := by rw [effect_len, effect_len]
  obtain ⟨hother, hhit, hcnt⟩ :=
    effect_decm_of_one_incremented hlen' hi fun _ => readBuf_noiseS_encm hlen hdraw
  refine ⟨i, effect .decm (effect .noiseS (effect .encm s)), hi,
    execAll_of_preconditionsHold hs hpres, (effect_len _ _).trans hlen', hother, ?_, ?_⟩
  · rw [hhit, decByte_increment_encByte_eq_iff]
  · rw [hcnt, decByte_increment_encByte_count_eq_zero_iff]

end Sys2Proof.Machine
end

section
/-! The tabulated command words (`95_test_vectors.md` section 2.9). -/

namespace Sys2Proof.Machine

/-- Settles O5, by the decoder's equation for each word's `op` and, for the four NOISE words,
its mode bit. -/
theorem tabulatedWordsDecode : Obligations.TabulatedWordsDecode :=
  ⟨decode_encn rfl, decode_synd rfl, decode_decn rfl, decode_encb rfl, decode_decb rfl,
    decode_encm rfl, decode_encm rfl, decode_decm rfl, decode_noiseS rfl rfl, decode_noiseB rfl rfl,
    decode_noiseS rfl rfl, decode_noiseB rfl rfl⟩

end Sys2Proof.Machine
end
